-- ==== Sys2Proof/Word.lean ====
section
/-! DEFINITION. The word types of biquad_iir_engine: what the spec treats as bits. -/

namespace Sys2Proof

/-- A 32-bit word: a port datum, a command word, a Q30 coefficient (R50, R80, R26). -/
abbrev Word := BitVec 32

/-- A 64-bit register: OPR, RES (R24, R25). -/
abbrev DWord := BitVec 64

/-- The 64-bit pattern of an IEEE 754 binary64 value; `F(p)` of R10 is the value whose pattern is `p`. -/
abbrev F64 := BitVec 64

/-- A 16-bit sample, two's complement (R83). -/
abbrev Sample := BitVec 16

/-- The carried remainder: 30 bits, unsigned (R29). -/
abbrev Remainder := BitVec 30

end Sys2Proof
end

