-- ==== Sys2Proof/Config.lean ====
section
/-! DEFINITION. The parameters of R6: what an implementation or a platform fixes, and the free values. -/

namespace Sys2Proof

/-- NCH, the number of channel slots (R6, D12): "2 by default". The state after reset has this many channels; a state with one
channel is the engine built with NCH = 1 (log 4). -/
def Config.nch : Nat := 2

/-- BQE_BASE, the base address of the register window (R6, R64): OPEN, so it has no body (log 7). -/
opaque Config.bqeBase : Nat

/-- TAN64 on a finite operand (R6, R125): OPEN, so it has no body. `Machine.F64.tan` adds the two facts the spec states,
that a NaN and an infinity give a NaN (log 6). -/
opaque Config.tan64 : F64 → F64

/-- NANBITS (R6, R10): the bits from which the n-th NaN pattern of a run is drawn. OPEN, so it has no body.
`Machine.F64.nanPattern` makes a NaN pattern of them (log 5). -/
opaque Config.nanBits : Nat → DWord

end Sys2Proof
end

