-- ==== Sys2Proof/Syntax.lean ====
section
/-! DEFINITION. The 18 commands of R84, with their operands as R81, R86 and R87 name them. -/

namespace Sys2Proof

/-- A coefficient name (R86). `b2` is an alias of `b0` (R26). -/
inductive Coef where
  | b0 | b1 | b2 | a1 | a2
deriving DecidableEq, Repr

/-- A filter parameter register (R27, R87). -/
inductive Param where
  | fc | qf | fs
deriving DecidableEq, Repr

/-- A field of a channel slot (R29, R30, R87). -/
inductive Field where
  | x1 | x2 | y1 | y2 | r | xf1 | xf2 | yf1 | yf2
deriving DecidableEq, Repr

/-- A channel slot index, the 4-bit field CH of a command word (R82). -/
abbrev ChIndex := BitVec 4

/-- A command (R84). One constructor per row of spec/opcode_table.json. -/
inductive Instr where
  /-- R180 -/
  | nop
  /-- R181 -/
  | srst
  /-- R182 -/
  | clrch (ch : ChIndex)
  /-- R102 -/
  | cvt
  /-- R103 -/
  | ldq (k : Coef)
  /-- R104 -/
  | ldd (k : Coef)
  /-- R105 -/
  | rdq (k : Coef)
  /-- R106 -/
  | rdd (k : Coef)
  /-- R120 -/
  | setfc
  /-- R121 -/
  | setq
  /-- R122 -/
  | setfs
  /-- R126 -/
  | ccalc
  /-- R123 -/
  | rdp (p : Param)
  /-- R147 -/
  | stepi (ch : ChIndex) (imm : Sample)
  /-- R162 -/
  | stepf (ch : ChIndex) (imm : Sample)
  /-- R165 -/
  | stepd (ch : ChIndex) (imm : Sample)
  /-- R183 -/
  | rdst (ch : ChIndex) (f : Field)
  /-- R184 -/
  | wrst (ch : ChIndex) (f : Field)
deriving DecidableEq, Repr

end Sys2Proof
end

