-- ==== Sys2Proof/WellFormed.lean ====
section
/-! DEFINITION. Which commands some legal word stands for on an engine with `nch` channel slots (R82, R86, R88). -/

namespace Sys2Proof

/-- A coefficient that can be loaded: every one but `b2` (R86, R103, R104). -/
def Coef.loadable : Coef → Bool
  | .b2 => false
  | .b0 | .b1 | .a1 | .a2 => true

/-- A channel slot the engine has (R82: "legal only if CH < NCH"). -/
def ChIndex.inRange (nch : Nat) (ch : ChIndex) : Bool := decide (ch.toNat < nch)

/-- The command is legal with NCH = `nch` (R88, conditions 2 and 3; conditions 1 and 4 hold of every term of `Instr`). -/
def Instr.wf (nch : Nat) : Instr → Bool
  | .nop | .srst | .cvt | .setfc | .setq | .setfs | .ccalc => true
  | .rdq _ | .rdd _ | .rdp _ => true
  | .ldq k | .ldd k => k.loadable
  | .clrch ch => ChIndex.inRange nch ch
  | .stepi ch _ | .stepf ch _ | .stepd ch _ => ChIndex.inRange nch ch
  | .rdst ch _ | .wrst ch _ => ChIndex.inRange nch ch

end Sys2Proof
end

