-- ==== Sys2Proof/Decode.lean ====
section
/-! DEFINITION. Decoding a command word (R80 to R90): total on every 32-bit word, none exactly where R88 makes the word
illegal. After it the encoder, written from the same tables. -/

namespace Sys2Proof

/-! ### The fields of a command word (R81) -/

/-- OP = w[31:24]. -/
def Word.op (w : Word) : BitVec 8 := w.extractLsb' 24 8

/-- CH = w[23:20]. -/
def Word.ch (w : Word) : BitVec 4 := w.extractLsb' 20 4

/-- SEL = w[19:16]. -/
def Word.sel (w : Word) : BitVec 4 := w.extractLsb' 16 4

/-- IMM = w[15:0]. -/
def Word.imm (w : Word) : Sample := w.extractLsb' 0 16

/-! ### Selectors (R86, R87) -/

/-- The coefficient a SEL value names (R86). -/
def Coef.ofSel (sel : BitVec 4) : Option Coef :=
  match sel.toNat with
  | 0 => some .b0
  | 1 => some .b1
  | 2 => some .b2
  | 3 => some .a1
  | 4 => some .a2
  | _ => none

/-- The parameter a SEL value names in RDP (R87). -/
def Param.ofSel (sel : BitVec 4) : Option Param :=
  match sel.toNat with
  | 0 => some .fc
  | 1 => some .qf
  | 2 => some .fs
  | _ => none

/-- The state field a SEL value names in RDST and WRST (R87). -/
def Field.ofSel (sel : BitVec 4) : Option Field :=
  match sel.toNat with
  | 0 => some .x1
  | 1 => some .x2
  | 2 => some .y1
  | 3 => some .y2
  | 4 => some .r
  | 5 => some .xf1
  | 6 => some .xf2
  | 7 => some .yf1
  | 8 => some .yf2
  | _ => none

/-! ### The forms of R84, by the fields they use; an unused field must be zero (R88) -/

/-- No field is used. -/
def formPlain (i : Instr) (ch sel : BitVec 4) (imm : Sample) : Option Instr :=
  if ch = 0 ∧ sel = 0 ∧ imm = 0 then some i else none

/-- SEL alone is used. -/
def formSel (f : BitVec 4 → Option Instr) (ch sel : BitVec 4) (imm : Sample) : Option Instr :=
  if ch = 0 ∧ imm = 0 then f sel else none

/-- CH alone is used. -/
def formCh (f : ChIndex → Instr) (ch sel : BitVec 4) (imm : Sample) : Option Instr :=
  if sel = 0 ∧ imm = 0 then some (f ch) else none

/-- CH and IMM are used. -/
def formChImm (f : ChIndex → Sample → Instr) (ch sel : BitVec 4) (imm : Sample) : Option Instr :=
  if sel = 0 then some (f ch imm) else none

/-- CH and SEL are used. -/
def formChSel (f : ChIndex → BitVec 4 → Option Instr) (ch sel : BitVec 4) (imm : Sample) : Option Instr :=
  if imm = 0 then f ch sel else none

/-- The opcode map (R84); every other opcode value is illegal (R89). -/
def decodeFields (op : BitVec 8) (ch sel : BitVec 4) (imm : Sample) : Option Instr :=
  match op.toNat with
  | 0x00 => formPlain .nop ch sel imm
  | 0x01 => formPlain .srst ch sel imm
  | 0x02 => formCh .clrch ch sel imm
  | 0x10 => formPlain .cvt ch sel imm
  | 0x11 => formSel (fun v => (Coef.ofSel v).map .ldq) ch sel imm
  | 0x12 => formSel (fun v => (Coef.ofSel v).map .ldd) ch sel imm
  | 0x13 => formSel (fun v => (Coef.ofSel v).map .rdq) ch sel imm
  | 0x14 => formSel (fun v => (Coef.ofSel v).map .rdd) ch sel imm
  | 0x20 => formPlain .setfc ch sel imm
  | 0x21 => formPlain .setq ch sel imm
  | 0x22 => formPlain .setfs ch sel imm
  | 0x23 => formPlain .ccalc ch sel imm
  | 0x24 => formSel (fun v => (Param.ofSel v).map .rdp) ch sel imm
  | 0x30 => formChImm .stepi ch sel imm
  | 0x31 => formChImm .stepf ch sel imm
  | 0x32 => formChImm .stepd ch sel imm
  | 0x38 => formChSel (fun c v => (Field.ofSel v).map (.rdst c)) ch sel imm
  | 0x39 => formChSel (fun c v => (Field.ofSel v).map (.wrst c)) ch sel imm
  | _ => none

/-- The command a word stands for on an engine with `nch` channel slots; none where the word is illegal (R88). -/
def decode (nch : Nat) (w : Word) : Option Instr :=
  (decodeFields w.op w.ch w.sel w.imm).filter (Instr.wf nch)

/-! ### The encoder -/

/-- The SEL value of a coefficient (R86). -/
def Coef.sel : Coef → BitVec 4
  | .b0 => 0
  | .b1 => 1
  | .b2 => 2
  | .a1 => 3
  | .a2 => 4

/-- The SEL value of a parameter (R87). -/
def Param.sel : Param → BitVec 4
  | .fc => 0
  | .qf => 1
  | .fs => 2

/-- The SEL value of a state field (R87). -/
def Field.sel : Field → BitVec 4
  | .x1 => 0
  | .x2 => 1
  | .y1 => 2
  | .y2 => 3
  | .r => 4
  | .xf1 => 5
  | .xf2 => 6
  | .yf1 => 7
  | .yf2 => 8

/-- OP of a command (R84). -/
def Instr.opcode : Instr → BitVec 8
  | .nop => 0x00
  | .srst => 0x01
  | .clrch _ => 0x02
  | .cvt => 0x10
  | .ldq _ => 0x11
  | .ldd _ => 0x12
  | .rdq _ => 0x13
  | .rdd _ => 0x14
  | .setfc => 0x20
  | .setq => 0x21
  | .setfs => 0x22
  | .ccalc => 0x23
  | .rdp _ => 0x24
  | .stepi _ _ => 0x30
  | .stepf _ _ => 0x31
  | .stepd _ _ => 0x32
  | .rdst _ _ => 0x38
  | .wrst _ _ => 0x39

/-- CH of a command, 0 where it is not used (R88). -/
def Instr.chField : Instr → BitVec 4
  | .clrch ch => ch
  | .stepi ch _ | .stepf ch _ | .stepd ch _ => ch
  | .rdst ch _ | .wrst ch _ => ch
  | .nop | .srst | .cvt | .ldq _ | .ldd _ | .rdq _ | .rdd _ => 0
  | .setfc | .setq | .setfs | .ccalc | .rdp _ => 0

/-- SEL of a command, 0 where it is not used (R88). -/
def Instr.selField : Instr → BitVec 4
  | .ldq k | .ldd k | .rdq k | .rdd k => k.sel
  | .rdp p => p.sel
  | .rdst _ f | .wrst _ f => f.sel
  | .nop | .srst | .cvt | .setfc | .setq | .setfs | .ccalc => 0
  | .clrch _ | .stepi _ _ | .stepf _ _ | .stepd _ _ => 0

/-- IMM of a command, 0 where it is not used (R88). -/
def Instr.immField : Instr → Sample
  | .stepi _ imm | .stepf _ imm | .stepd _ imm => imm
  | .nop | .srst | .clrch _ | .cvt | .ldq _ | .ldd _ | .rdq _ | .rdd _ => 0
  | .setfc | .setq | .setfs | .ccalc | .rdp _ | .rdst _ _ | .wrst _ _ => 0

/-- The word with the given fields, most significant first (R81: `OOOOOOOO CCCC SSSS IIIIIIIIIIIIIIII`). -/
def packFields (op : BitVec 8) (ch sel : BitVec 4) (imm : Sample) : Word := op ++ ch ++ sel ++ imm

/-- The word of a command. -/
def encode (i : Instr) : Word := packFields i.opcode i.chField i.selField i.immField

/-! ### The host's view of the table -/

/-- The command read from the `nbits` bits `w` of an opcode-table row. Every command is one 32-bit word (R80), so bits
above `nbits` are 0 and a value with bits above bit 31 is no command word. -/
def decodeTableWord (nbits w : Nat) : Option Instr :=
  if w % 2 ^ nbits < 2 ^ 32 then decode Config.nch (BitVec.ofNat 32 (w % 2 ^ nbits)) else none

end Sys2Proof
end

