-- ==== Sys2Proof/Machine/State.lean ====
section
/-! DEFINITION. The state of the engine (R35), the host events it serves (R50, R70), why a step can stop, and reset (R220). -/

namespace Sys2Proof.Machine

/-- The carry policy of a channel, POL[c] (R23): 0 = CarryRemainder, 1 = RoundAndReset. -/
inductive CarryPolicy where
  | carryRemainder
  | roundAndReset
deriving DecidableEq, Repr

/-- The three sticky flags of STATUS, bits 0, 1 and 2 (R22). -/
structure Status where
  ill : Bool
  inv : Bool
  sat : Bool
deriving DecidableEq, Repr

/-- The coefficients' Q30 forms Q[k], signed (R26). b2 has no storage. -/
structure QCoefs where
  b0 : Word
  b1 : Word
  a1 : Word
  a2 : Word
deriving DecidableEq, Repr

/-- The coefficients' binary64 forms D[k], as patterns (R26). b2 has no storage. -/
structure DCoefs where
  b0 : F64
  b1 : F64
  a1 : F64
  a2 : F64
deriving DecidableEq, Repr

/-- The filter parameter registers P.FC, P.QF and P.FS (R27). -/
structure Params where
  fc : F64
  qf : F64
  fs : Word
deriving DecidableEq, Repr

/-- The integer track of a channel slot (R29). -/
structure IntTrack where
  x1 : Sample
  x2 : Sample
  y1 : Word
  y2 : Word
  r  : Remainder
deriving DecidableEq, Repr

/-- The floating track of a channel slot, as patterns (R30). -/
structure FltTrack where
  xf1 : F64
  xf2 : F64
  yf1 : F64
  yf2 : F64
deriving DecidableEq, Repr

/-- One engine instance: "one channel slot with its policy" (R13, R23, R28). -/
structure Channel where
  pol : CarryPolicy
  int : IntTrack
  flt : FltTrack
deriving DecidableEq, Repr

/-- The widths of an access that the port does not have (R50, R63, I14). -/
inductive OtherWidth where
  | byte
  | halfword
  | doubleword
deriving DecidableEq, Repr

/-- What the host can do to the engine in one step (R50, R70). Offsets are byte offsets from the window base. -/
inductive HostEvent where
  /-- The reset input (R220). -/
  | reset
  /-- `Read(off)`, 32 bits wide (R50). -/
  | read (off : Nat)
  /-- `Write(off, wdata)`, 32 bits wide (R50). -/
  | write (off : Nat) (wdata : Word)
  /-- An access narrower or wider than 32 bits: the port has no such transaction (R63). -/
  | other (width : OtherWidth) (off : Nat)
deriving DecidableEq, Repr

/-- The state: the complete state vector of R35, then four fields of the model's own. -/
structure State where
  /-- STATUS (R22). -/
  status : Status
  /-- OPR (R24). -/
  opr : DWord
  /-- RES (R25). -/
  res : DWord
  /-- Q[b0], Q[b1], Q[a1], Q[a2] (R26). -/
  q : QCoefs
  /-- D[b0], D[b1], D[a1], D[a2] (R26). -/
  d : DCoefs
  /-- P.FC, P.QF, P.FS (R27). -/
  p : Params
  /-- POL[c] and S[c] for c = 0 .. NCH - 1 (R23, R28). The length of this list is NCH (R6), which no step changes (log 4). -/
  channels : List Channel
  /-- The model's own: how many patterns have been drawn from NANBITS (R6; log 5). -/
  nanDraws : Nat
  /-- The model's own: the host events still to come, in arrival order (R60, R71; log 1). -/
  pending : List HostEvent
  /-- The model's own: the `rdata` values of the reads so far, oldest first (R71; log 3). -/
  observed : List Word
deriving DecidableEq, Repr

/-- There is no fault: the engine has no traps (R204) and "nothing in the spec is `fault` or `stuck`"
(93_implementation_defined.md). So no step raises one. -/
inductive Fault where
deriving DecidableEq, Repr

/-- Why a step can be refused. -/
inductive Refusal where
  /-- Raised by an arm of `exec` whose instruction has no meaning yet; safe. No arm raises it. -/
  | notModelled (mnemonic : String)
  /-- Raised by `portStep` on an access that is not 32 bits wide: "a model refuses it" (R63, I14); safe. -/
  | accessWidth
  /-- Raised by `portStep` on a byte offset in the window that is no multiple of 4: "a model refuses it" (R63, I14); safe. -/
  | misaligned
  /-- Raised by `portStep` on an offset outside the 64-byte window: it does "not reach this block" (R59, I15); safe. -/
  | outsideWindow
deriving DecidableEq, Repr

/-! ### Reset (R35, R220) -/

/-- STATUS = 0. -/
def Status.reset : Status := { ill := false, inv := false, sat := false }

/-- Every Q[k] = 0. -/
def QCoefs.reset : QCoefs := { b0 := 0, b1 := 0, a1 := 0, a2 := 0 }

/-- Every D[k] = +0.0. -/
def DCoefs.reset : DCoefs := { b0 := 0, b1 := 0, a1 := 0, a2 := 0 }

/-- P.FC = 10000.0, P.QF = 0.707, P.FS = 48000 (R27). -/
def Params.reset : Params :=
  { fc := 0x40C3880000000000, qf := 0x3FE69FBE76C8B439, fs := 48000 }

/-- The integer track zeroed (R29). -/
def IntTrack.reset : IntTrack := { x1 := 0, x2 := 0, y1 := 0, y2 := 0, r := 0 }

/-- The floating track zeroed, +0.0 in every field (R30). -/
def FltTrack.reset : FltTrack := { xf1 := 0, xf2 := 0, yf1 := 0, yf2 := 0 }

/-- POL[c] = 0 (CarryRemainder, R23) and S[c] zeroed. -/
def Channel.reset : Channel :=
  { pol := .carryRemainder, int := IntTrack.reset, flt := FltTrack.reset }

/-- The machine right after reset (R35, R220), with NCH channels, nothing drawn, nothing pending and nothing observed. -/
def State.reset : State :=
  { status := Status.reset
    opr := 0
    res := 0
    q := QCoefs.reset
    d := DCoefs.reset
    p := Params.reset
    channels := List.replicate Config.nch Channel.reset
    nanDraws := 0
    pending := []
    observed := [] }

/-- NCH of this engine (R6). -/
def State.nch (s : State) : Nat := s.channels.length

end Sys2Proof.Machine
end

