-- ==== Sys2Proof/Machine/Binary64.lean ====
section
/-! DEFINITION. IEEE 754 binary64 arithmetic on patterns (R10). Every finite value is an integer multiple of 2^-1074, so an
operation is computed exactly on those integers and rounded once, to nearest with ties to even. The rules for special operands
and signs of zero are IEEE 754's, which R10 takes from general knowledge (log 11). -/

namespace Sys2Proof.Machine

/-! ### Reading a pattern -/

/-- The sign bit. -/
def F64.neg (p : F64) : Bool := p.msb

/-- The biased exponent field, 11 bits. -/
def F64.expField (p : F64) : Nat := (p.extractLsb' 52 11).toNat

/-- The fraction field, 52 bits. -/
def F64.fracField (p : F64) : Nat := (p.extractLsb' 0 52).toNat

/-- `p` is the pattern of a NaN. -/
def F64.isNaN (p : F64) : Bool := F64.expField p == 2047 && F64.fracField p != 0

/-- `p` is +inf or -inf. -/
def F64.isInf (p : F64) : Bool := F64.expField p == 2047 && F64.fracField p == 0

/-- `p` is neither a NaN nor an infinity. -/
def F64.isFinite (p : F64) : Bool := F64.expField p != 2047

/-- The magnitude of a finite value, in units of 2^-1074. An infinity gives 2^2098, above every finite magnitude, so
comparisons need no case of their own for it. -/
def F64.mag (p : F64) : Nat :=
  if F64.expField p = 0 then F64.fracField p
  else (2 ^ 52 + F64.fracField p) * 2 ^ (F64.expField p - 1)

/-- The value of a finite pattern, in units of 2^-1074: real(p) = `scaled p` / 2^1074. -/
def F64.scaled (p : F64) : Int := if F64.neg p then -(F64.mag p : Int) else F64.mag p

/-- `p` is +0.0 or -0.0. -/
def F64.isZero (p : F64) : Bool := F64.mag p == 0

/-! ### Writing a pattern -/

/-- The pattern with the given sign bit and lower 63 bits. -/
def F64.ofSignMag (neg : Bool) (low : Nat) : F64 :=
  BitVec.ofBool neg ++ BitVec.ofNat 63 low

/-- An infinity. -/
def F64.inf (neg : Bool) : F64 := F64.ofSignMag neg (2047 * 2 ^ 52)

/-- A zero. -/
def F64.zero (neg : Bool) : F64 := F64.ofSignMag neg 0

/-- A NaN pattern made of free bits: sign and fraction are the bits', the exponent field is all ones, and the one fraction
that would spell an infinity becomes 1. Every NaN pattern is `nanPattern` of itself (log 5). -/
def F64.nanPattern (bits : DWord) : F64 :=
  F64.ofSignMag bits.msb
    (2047 * 2 ^ 52 + (if F64.fracField bits = 0 then 1 else F64.fracField bits))

/-- The exponent of the unit in which a magnitude of `v` units of 2^-1074 (its whole part) is rounded: a rounded magnitude
is a multiple of 2^e and has at most 53 bits. -/
def F64.roundExp (v : Nat) : Nat := if v < 2 ^ 53 then 0 else Nat.log2 v - 52

/-- num / den to the nearest integer, ties to even. -/
def F64.divRoundEven (num den : Nat) : Nat :=
  let q := num / den
  let rem := num % den
  if 2 * rem < den then q
  else if den < 2 * rem then q + 1
  else q + q % 2

/-- The lower 63 bits of the binary64 pattern nearest to num / den units of 2^-1074, ties to even; 2047 * 2^52, an infinity, where
the rounded magnitude is 2^1024 or more. The sum carries a significand that rounds up to 2^53 into the exponent field. -/
def F64.roundMag (num den : Nat) : Nat :=
  let e := F64.roundExp (num / den)
  min (e * 2 ^ 52 + F64.divRoundEven num (den * 2 ^ e)) (2047 * 2 ^ 52)

/-- The binary64 value nearest to (-1)^neg * num / den units of 2^-1074, ties to even (R10). -/
def F64.round (neg : Bool) (num den : Nat) : F64 := F64.ofSignMag neg (F64.roundMag num den)

/-! ### Operations (R10): `nan` is the pattern a NaN result has, a draw from NANBITS -/

/-- Negation: the sign bit inverted. -/
def F64.negate (p : F64) : F64 := F64.ofSignMag (!F64.neg p) (p.toNat % 2 ^ 63)

/-- The sum of two finite values. An exact sum of zero is -0.0 only where both operands are negative. -/
def F64.addFinite (a b : F64) : F64 :=
  let n := F64.scaled a + F64.scaled b
  if n = 0 then F64.zero (F64.neg a && F64.neg b)
  else F64.round (decide (n < 0)) n.natAbs 1

/-- fadd (R10). -/
def F64.add (nan : F64) (a b : F64) : F64 :=
  if F64.isNaN a || F64.isNaN b then nan
  else if F64.isInf a then
    if F64.isInf b && F64.neg a != F64.neg b then nan else a
  else if F64.isInf b then b
  else F64.addFinite a b

/-- fsub (R10): the sum with the second operand negated. -/
def F64.sub (nan : F64) (a b : F64) : F64 := F64.add nan a (F64.negate b)

/-- fmul (R10). -/
def F64.mul (nan : F64) (a b : F64) : F64 :=
  let neg := F64.neg a != F64.neg b
  if F64.isNaN a || F64.isNaN b then nan
  else if F64.isInf a || F64.isInf b then
    if F64.isZero a || F64.isZero b then nan else F64.inf neg
  else F64.round neg (F64.mag a * F64.mag b) (2 ^ 1074)

/-- fdiv (R10). -/
def F64.div (nan : F64) (a b : F64) : F64 :=
  let neg := F64.neg a != F64.neg b
  if F64.isNaN a || F64.isNaN b then nan
  else if F64.isInf a then
    if F64.isInf b then nan else F64.inf neg
  else if F64.isInf b then F64.zero neg
  else if F64.isZero b then
    if F64.isZero a then nan else F64.inf neg
  else F64.round neg (F64.mag a * 2 ^ 1074) (F64.mag b)

/-- i2f (R10): an integer, converted exactly where binary64 holds it exactly. -/
def F64.ofInt (n : Int) : F64 := F64.round (decide (n < 0)) (n.natAbs * 2 ^ 1074) 1

/-- TAN64 (R6, R125): NaN on a NaN and on an infinity; on a finite operand whatever the OPEN parameter gives. The NaN's pattern
is free too, and no command shows it: CCALC only computes with it. -/
def F64.tan (p : F64) : F64 :=
  if F64.isFinite p then Config.tan64 p else F64.nanPattern (Config.tan64 p)

/-! ### Comparison and conversion to integers -/

/-- `a < b`, the exact comparison of two values that are no NaN. -/
def F64.lt (a b : F64) : Bool := decide (F64.scaled a < F64.scaled b)

/-- `b <= a`, the exact comparison of two values that are no NaN. -/
def F64.ge (a b : F64) : Bool := decide (F64.scaled b ≤ F64.scaled a)

/-- trunc(real(p) * 2^k) for a finite `p` (R9): toward zero. -/
def F64.truncScaled (p : F64) (k : Nat) : Int := (F64.scaled p * 2 ^ k).tdiv (2 ^ 1074)

/-! ### The draws of a command -/

/-- The NaN pattern that the `j`-th binary64 operation of the command about to run produces if its result is a NaN (R6:
"any NaN pattern, a draw per operation"). -/
def State.drawNaN (s : State) (j : Nat) : F64 := F64.nanPattern (Config.nanBits (s.nanDraws + j))

end Sys2Proof.Machine
end

