-- ==== Sys2Proof/Machine/Flags.lean ====
section
/-! DEFINITION. The STATUS flags (R22, R55, R201 to R203) and the carry-policy bits of CTRL (R23, R56). -/

namespace Sys2Proof.Machine

/-! ### STATUS -/

/-- What a read of STATUS returns: {29'b0, SAT, INV, ILL} (R52). -/
def Status.word (f : Status) : Word :=
  (0#29) ++ BitVec.ofBool f.sat ++ BitVec.ofBool f.inv ++ BitVec.ofBool f.ill

/-- Write-1-to-clear: STATUS[2:0] <- STATUS[2:0] AND NOT wdata[2:0] (R55). -/
def Status.clear (f : Status) (wdata : Word) : Status :=
  { ill := f.ill && !wdata.getLsbD 0
    inv := f.inv && !wdata.getLsbD 1
    sat := f.sat && !wdata.getLsbD 2 }

/-- What a conversion reports, ORed into the sticky flags INV and SAT (R11 `setflag`, R202, R203). -/
def Status.note (f : Status) (inv sat : Bool) : Status :=
  { f with inv := f.inv || inv, sat := f.sat || sat }

/-! ### CTRL -/

/-- The bit of a policy (R23). -/
def CarryPolicy.bit : CarryPolicy → Nat
  | .carryRemainder => 0
  | .roundAndReset => 1

/-- The policy of a bit (R23). -/
def CarryPolicy.ofBit : Bool → CarryPolicy
  | false => .carryRemainder
  | true => .roundAndReset

/-- The number whose bit c is POL[c] (R23). -/
def policyBits : List Channel → Nat
  | [] => 0
  | c :: cs => c.pol.bit + 2 * policyBits cs

/-- What a read of CTRL returns: {zeros, POL[NCH-1:0]} (R52). -/
def ctrlWord (cs : List Channel) : Word := BitVec.ofNat 32 (policyBits cs)

/-- POL[c] <- wdata[c] for every c < NCH (R56). -/
def writePolicies (cs : List Channel) (wdata : Word) : List Channel :=
  cs.mapIdx fun c ch => { ch with pol := CarryPolicy.ofBit (wdata.getLsbD c) }

end Sys2Proof.Machine
end

