-- ==== Sys2Proof/Machine/Operands.lean ====
section
/-! DEFINITION. Operand assembly (R90), the forms of a result in RES, and the fields the selectors name (R86, R87). -/

namespace Sys2Proof.Machine

/-! ### Operands from OPR and from the command word (R24, R83, R90) -/

/-- OPR as a binary64 pattern. -/
def State.oprF64 (s : State) : F64 := s.opr

/-- OPR[31:0], an int32 or a u32. -/
def State.opr32 (s : State) : Word := s.opr.setWidth 32

/-- OPR[15:0], an int16. -/
def State.opr16 (s : State) : Sample := s.opr.setWidth 16

/-- OPR[29:0], a u30. -/
def State.opr30 (s : State) : Remainder := s.opr.setWidth 30

/-- The input sample x = sext_16(IMM), an integer with no scaling (R83). -/
def sampleInt (imm : Sample) : Int := imm.toInt

/-! ### wrap_N of a mathematical integer, as its N-bit pattern (R9) -/

/-- wrap_64. -/
def wrap64 (v : Int) : BitVec 64 := BitVec.ofInt 64 v

/-- wrap_32. -/
def wrap32 (v : Int) : Word := BitVec.ofInt 32 v

/-- wrap_16. -/
def wrap16 (v : Int) : Sample := BitVec.ofInt 16 v

/-! ### Results: bits_64(sext_64 v) and zext_64 v (R9) -/

/-- A 16-bit sample sign-extended to RES. -/
def resOf16 (v : Sample) : DWord := v.signExtend 64

/-- A 32-bit signed value sign-extended to RES. -/
def resOf32 (v : Word) : DWord := v.signExtend 64

/-- A 32-bit unsigned value zero-extended to RES. -/
def resOfU32 (v : Word) : DWord := v.setWidth 64

/-- A remainder zero-extended to RES. -/
def resOf30 (v : Remainder) : DWord := v.setWidth 64

/-! ### Coefficients by name: b2 reads b0 (R26, R86) -/

/-- Q[k]. -/
def QCoefs.get (q : QCoefs) : Coef → Word
  | .b0 => q.b0
  | .b1 => q.b1
  | .b2 => q.b0
  | .a1 => q.a1
  | .a2 => q.a2

/-- Q[k] <- v. b2 has no storage, and no legal command writes it (R86): the value is dropped. -/
def QCoefs.set (q : QCoefs) (k : Coef) (v : Word) : QCoefs :=
  match k with
  | .b0 => { q with b0 := v }
  | .b1 => { q with b1 := v }
  | .b2 => q
  | .a1 => { q with a1 := v }
  | .a2 => { q with a2 := v }

/-- D[k]. -/
def DCoefs.get (d : DCoefs) : Coef → F64
  | .b0 => d.b0
  | .b1 => d.b1
  | .b2 => d.b0
  | .a1 => d.a1
  | .a2 => d.a2

/-- D[k] <- v. b2 has no storage, and no legal command writes it (R86): the value is dropped. -/
def DCoefs.set (d : DCoefs) (k : Coef) (v : F64) : DCoefs :=
  match k with
  | .b0 => { d with b0 := v }
  | .b1 => { d with b1 := v }
  | .b2 => d
  | .a1 => { d with a1 := v }
  | .a2 => { d with a2 := v }

/-! ### Parameters and channel-slot fields by name (R87, R123, R183, R184) -/

/-- A parameter register in the form RDP returns it (R123). -/
def Params.read (p : Params) : Param → DWord
  | .fc => p.fc
  | .qf => p.qf
  | .fs => resOfU32 p.fs

/-- A field of a channel slot in the form RDST returns it (R183). -/
def Channel.readField (c : Channel) : Field → DWord
  | .x1 => resOf16 c.int.x1
  | .x2 => resOf16 c.int.x2
  | .y1 => resOf32 c.int.y1
  | .y2 => resOf32 c.int.y2
  | .r => resOf30 c.int.r
  | .xf1 => c.flt.xf1
  | .xf2 => c.flt.xf2
  | .yf1 => c.flt.yf1
  | .yf2 => c.flt.yf2

/-- A field of a channel slot written from OPR, in the width of the field (R184). -/
def Channel.writeField (c : Channel) (f : Field) (s : State) : Channel :=
  match f with
  | .x1 => { c with int := { c.int with x1 := s.opr16 } }
  | .x2 => { c with int := { c.int with x2 := s.opr16 } }
  | .y1 => { c with int := { c.int with y1 := s.opr32 } }
  | .y2 => { c with int := { c.int with y2 := s.opr32 } }
  | .r => { c with int := { c.int with r := s.opr30 } }
  | .xf1 => { c with flt := { c.flt with xf1 := s.oprF64 } }
  | .xf2 => { c with flt := { c.flt with xf2 := s.oprF64 } }
  | .yf1 => { c with flt := { c.flt with yf1 := s.oprF64 } }
  | .yf2 => { c with flt := { c.flt with yf2 := s.oprF64 } }

end Sys2Proof.Machine
end

