-- ==== Sys2Proof/Machine/Ops.lean ====
section
/-! DEFINITION. The shared operations: IllegalCommand (R200), reset (R220), access to a channel slot, and the registers of the
port (R52). The engine has no trap entry and no return (R204, R205): IllegalCommand is its one exceptional operation. -/

namespace Sys2Proof.Machine

/-- IllegalCommand: "STATUS.ILL <- 1 and changes nothing else" (R200). -/
def State.raiseIllegal (s : State) : State := { s with status := { s.status with ill := true } }

/-- What a command answers when its term is not legal on this engine: IllegalCommand, a next state (R200). No legal word
decodes to such a term (log 10). -/
def illegalCommand (s : State) : Host.Outcome State Fault Refusal := .next s.raiseIllegal

/-- INV and SAT as a conversion reports them (R100, R160, R202). -/
def State.noteFlags (s : State) (inv sat : Bool) : State := { s with status := s.status.note inv sat }

/-- RES <- v (R25). -/
def State.setRes (s : State) (v : DWord) : State := { s with res := v }

/-- S[ch] and POL[ch] replaced; no other channel changes (R28). -/
def State.setChannel (s : State) (ch : ChIndex) (c : Channel) : State :=
  { s with channels := s.channels.set ch.toNat c }

/-- A command on channel `ch`: what `f` does with S[ch], or IllegalCommand where CH >= NCH (R82, R88). -/
def onChannel (ch : ChIndex) (s : State) (f : Channel → State) : Host.Outcome State Fault Refusal :=
  match s.channels[ch.toNat]? with
  | some c => .next (f c)
  | none => illegalCommand s

/-- Reset (R220): every element of R35 at its reset value. The number of channels is a parameter of the engine, and the model's
own fields are no state of the engine: they stay (log 12). -/
def State.doReset (s : State) : State :=
  { State.reset with
    channels := List.replicate s.nch Channel.reset
    nanDraws := s.nanDraws
    pending := s.pending
    observed := s.observed }

/-! ### The registers of the port (R52) -/

/-- The value of ID (R32, R53). -/
def idValue : Word := 0x42510007

/-- A register of the window (R52). -/
inductive PortReg where
  | id | status | ctrl | cmd | oprLo | oprHi | resLo | resHi | reserved
deriving DecidableEq, Repr

/-- The register at a byte offset of the window (R52). -/
def PortReg.ofOffset : Nat → PortReg
  | 0x00 => .id
  | 0x04 => .status
  | 0x08 => .ctrl
  | 0x0C => .cmd
  | 0x10 => .oprLo
  | 0x14 => .oprHi
  | 0x18 => .resLo
  | 0x1C => .resHi
  | _ => .reserved

/-- Whether the port has a 32-bit access at a byte offset (R50, R59, R63): the refusal, or none. -/
def offsetRefusal (off : Nat) : Option Refusal :=
  if 0x40 ≤ off then some .outsideWindow
  else if off % 4 ≠ 0 then some .misaligned
  else none

/-- What a read of a register returns (R52). -/
def State.readReg (s : State) : PortReg → Word
  | .id => idValue
  | .status => s.status.word
  | .ctrl => ctrlWord s.channels
  | .cmd => 0
  | .oprLo => s.opr.extractLsb' 0 32
  | .oprHi => s.opr.extractLsb' 32 32
  | .resLo => s.res.extractLsb' 0 32
  | .resHi => s.res.extractLsb' 32 32
  | .reserved => 0

/-- What a write of a register other than CMD does (R52, R55, R56, R58, R59). CMD's write runs a command: see `portStep`. -/
def State.writeReg (s : State) (wdata : Word) : PortReg → State
  | .status => { s with status := s.status.clear wdata }
  | .ctrl => { s with channels := writePolicies s.channels wdata }
  | .oprLo => { s with opr := s.opr.extractLsb' 32 32 ++ wdata }
  | .oprHi => { s with opr := wdata ++ s.opr.extractLsb' 0 32 }
  | .id | .resLo | .resHi | .reserved => s
  | .cmd => s

/-! ### The window in a byte-addressed space (R62, R64) -/

/-- The byte of the window at a byte offset, little-endian within each register (R62); none outside the window (R59). -/
def State.windowByte (s : State) (off : Nat) : Option (BitVec 8) :=
  if off < 0x40 then
    some ((s.readReg (PortReg.ofOffset (off / 4 * 4))).extractLsb' (8 * (off % 4)) 8)
  else none

/-- The offset in the window of a host address, with the window at BQE_BASE (R64); none outside it. -/
def windowOffset (addr : Nat) : Option Nat :=
  if Config.bqeBase ≤ addr ∧ addr < Config.bqeBase + 0x40 then some (addr - Config.bqeBase) else none

/-- The byte a host sees at an address of the window (R62). -/
def State.hostByte (s : State) (addr : Nat) : Option (BitVec 8) :=
  (windowOffset addr).bind s.windowByte

end Sys2Proof.Machine
end

