-- ==== Sys2Proof/Machine/QFormat.lean ====
section
/-! DEFINITION. The saturating Q30 conversion and the coefficient commands CVT, LDQ, LDD, RDQ, RDD (40_qformat.md). -/

namespace Sys2Proof.Machine

/-- QFRAC, the fraction bits of the fixed-point format (R6, R100). -/
def qFrac : Nat := 30

/-- QMAX = 2^31 - 1 (R100). -/
def qMax : Word := 0x7FFFFFFF

/-- QMIN = -2^31 (R100). -/
def qMin : Word := 0x80000000

/-- The binary64 value 2.0, the saturation bound 2^(31-QFRAC) (R100). -/
def f64Two : F64 := 0x4000000000000000

/-- The binary64 value -2.0 (R100). -/
def f64NegTwo : F64 := 0xC000000000000000

/-- What Q30sat returns (R100). -/
structure Q30 where
  q   : Word
  inv : Bool
  sat : Bool
deriving DecidableEq, Repr

/-- Q30sat, the saturating conversion from binary64 to Q30 (R100). -/
def q30sat (f : F64) : Q30 :=
  if F64.isNaN f then { q := 0, inv := true, sat := false }
  else if F64.ge f f64Two then { q := qMax, inv := false, sat := true }
  else if F64.lt f f64NegTwo then { q := qMin, inv := false, sat := true }
  else { q := wrap32 (F64.truncScaled f qFrac), inv := false, sat := false }

/-- CVT: RES <- the Q30 form of OPR (R102). -/
def execCvt (s : State) : Host.Outcome State Fault Refusal :=
  let c := q30sat s.oprF64
  .next ((s.setRes (resOf32 c.q)).noteFlags c.inv c.sat)

/-- LDQ: Q[k] <- OPR[31:0]; D[k] keeps its value (R103). -/
def execLdq (k : Coef) (s : State) : Host.Outcome State Fault Refusal :=
  if k.loadable then .next { s with q := s.q.set k s.opr32 } else illegalCommand s

/-- LDD: D[k] <- OPR and Q[k] <- its Q30 form (R104). -/
def execLdd (k : Coef) (s : State) : Host.Outcome State Fault Refusal :=
  let c := q30sat s.oprF64
  if k.loadable then
    .next ({ s with d := s.d.set k s.oprF64, q := s.q.set k c.q }.noteFlags c.inv c.sat)
  else illegalCommand s

/-- RDQ: RES <- Q[k], sign-extended; b2 reads b0 (R105). -/
def execRdq (k : Coef) (s : State) : Host.Outcome State Fault Refusal :=
  .next (s.setRes (resOf32 (s.q.get k)))

/-- RDD: RES <- the pattern D[k]; b2 reads b0 (R106). -/
def execRdd (k : Coef) (s : State) : Host.Outcome State Fault Refusal :=
  .next (s.setRes (s.d.get k))

end Sys2Proof.Machine
end

