-- ==== Sys2Proof/Machine/Coefficients.lean ====
section
/-! DEFINITION. The filter parameters and the coefficient calculator: SETFC, SETQ, SETFS, RDP, CCALC (41_coefficients.md). -/

namespace Sys2Proof.Machine

/-- SETFC: P.FC <- OPR (R120). -/
def execSetfc (s : State) : Host.Outcome State Fault Refusal := .next { s with p := { s.p with fc := s.oprF64 } }

/-- SETQ: P.QF <- OPR (R121). -/
def execSetq (s : State) : Host.Outcome State Fault Refusal := .next { s with p := { s.p with qf := s.oprF64 } }

/-- SETFS: P.FS <- OPR[31:0] (R122). -/
def execSetfs (s : State) : Host.Outcome State Fault Refusal := .next { s with p := { s.p with fs := s.opr32 } }

/-- RDP: RES <- a parameter register (R123). -/
def execRdp (p : Param) (s : State) : Host.Outcome State Fault Refusal := .next (s.setRes (s.p.read p))

/-! ### CCALC (R124 to R127) -/

/-- PI64, the binary64 nearest pi (R125). -/
def pi64 : F64 := 0x400921FB54442D18

/-- The binary64 value 1.0. -/
def f64One : F64 := 0x3FF0000000000000

/-- How many binary64 arithmetic operations CCALC's listing has (R126): two before TAN64, thirteen after it. Each has its own
draw of a NaN pattern. -/
def ccalcOps : Nat := 15

/-- t2 = PI64 * fc / fs, the argument of TAN64 (R126). `nan j` is the draw of operation `j`. -/
def ccalcAngle (nan : Nat → F64) (fc : F64) (fs : Word) : F64 :=
  let t1 := F64.mul (nan 0) pi64 fc
  F64.div (nan 1) t1 (F64.ofInt fs.toNat)

/-- The four coefficients from K and Q (R126), one line of the listing after another. -/
def ccalcFromK (nan : Nat → F64) (k q : F64) : DCoefs :=
  let k2 := F64.mul (nan 2) k k
  let kq := F64.div (nan 3) k q
  let den := F64.add (nan 5) (F64.add (nan 4) f64One kq) k2
  let norm := F64.div (nan 6) f64One den
  let vb0 := F64.mul (nan 7) k2 norm
  let vb1 := F64.mul (nan 8) f64Two vb0
  let va1 := F64.mul (nan 11) (F64.mul (nan 10) f64Two (F64.sub (nan 9) k2 f64One)) norm
  let va2 := F64.mul (nan 14) (F64.add (nan 13) (F64.sub (nan 12) f64One kq) k2) norm
  { b0 := vb0, b1 := vb1, a1 := va1, a2 := va2 }

/-- The coefficients CCALC computes from the parameter registers (R126). -/
def ccalcCoefs (nan : Nat → F64) (p : Params) : DCoefs :=
  ccalcFromK nan (F64.tan (ccalcAngle nan p.fc p.fs)) p.qf

/-- The Q30 forms of a set of coefficients (R126). -/
def quantize (d : DCoefs) : QCoefs :=
  { b0 := (q30sat d.b0).q, b1 := (q30sat d.b1).q, a1 := (q30sat d.a1).q, a2 := (q30sat d.a2).q }

/-- Whether some conversion of the set is invalid (R126). -/
def anyInvalid (d : DCoefs) : Bool :=
  (q30sat d.b0).inv || (q30sat d.b1).inv || (q30sat d.a1).inv || (q30sat d.a2).inv

/-- Whether some conversion of the set saturates (R126). -/
def anySaturated (d : DCoefs) : Bool :=
  (q30sat d.b0).sat || (q30sat d.b1).sat || (q30sat d.a1).sat || (q30sat d.a2).sat

/-- CCALC: every D[k] and Q[k] from the parameter registers; nothing is checked (R126, R127). -/
def execCcalc (s : State) : Host.Outcome State Fault Refusal :=
  let d := ccalcCoefs s.drawNaN s.p
  .next ({ s with d := d, q := quantize d, nanDraws := s.nanDraws + ccalcOps }.noteFlags
    (anyInvalid d) (anySaturated d))

end Sys2Proof.Machine
end

