-- ==== Sys2Proof/Machine/Control.lean ====
section
/-! DEFINITION. The control and channel-state commands: NOP, SRST, CLRCH, RDST, WRST (44_control.md). -/

namespace Sys2Proof.Machine

/-- NOP: nothing (R180). -/
def execNop (s : State) : Host.Outcome State Fault Refusal := .next s

/-- SRST: reset (R181, R220). -/
def execSrst (s : State) : Host.Outcome State Fault Refusal := .next s.doReset

/-- CLRCH: both tracks of S[ch] zeroed, POL[ch] kept (R182). -/
def execClrch (ch : ChIndex) (s : State) : Host.Outcome State Fault Refusal :=
  onChannel ch s fun c => s.setChannel ch { c with int := IntTrack.reset, flt := FltTrack.reset }

/-- RDST: RES <- the field, sign- or zero-extended by its type (R183). -/
def execRdst (ch : ChIndex) (f : Field) (s : State) : Host.Outcome State Fault Refusal :=
  onChannel ch s fun c => s.setRes (c.readField f)

/-- WRST: the field <- OPR, in the field's width (R184). -/
def execWrst (ch : ChIndex) (f : Field) (s : State) : Host.Outcome State Fault Refusal :=
  onChannel ch s fun c => s.setChannel ch (c.writeField f s)

end Sys2Proof.Machine
end

