-- ==== Sys2Proof/Machine/IntegerFilter.lean ====
section
/-! DEFINITION. The integer fixed-point filter: IntStep and STEPI (42_integer_filter.md). -/

namespace Sys2Proof.Machine

/-- The accumulator: bias and five exact products, summed modulo 2^64 (R141, R142). b2 is b0. -/
def IntTrack.acc (q : QCoefs) (t : IntTrack) (x : Int) : BitVec 64 :=
  wrap64 (t.r.toNat + q.b0.toInt * x + q.b1.toInt * t.x1.toInt + q.b0.toInt * t.x2.toInt
    - q.a1.toInt * t.y1.toInt - q.a2.toInt * t.y2.toInt)

/-- The output before narrowing: floor(acc / 2^30) under CarryRemainder (R143), floor((acc + 2^29) / 2^30) with the sum wrapped
to 64 bits under RoundAndReset (R144). -/
def shiftedAcc (pol : CarryPolicy) (acc : BitVec 64) : Int :=
  match pol with
  | .carryRemainder => acc.toInt / 2 ^ 30
  | .roundAndReset => (wrap64 (acc.toInt + 2 ^ 29)).toInt / 2 ^ 30

/-- The remainder carried to the next step: acc[29:0] under CarryRemainder (R143), 0 under RoundAndReset (R144). -/
def nextRemainder (pol : CarryPolicy) (acc : BitVec 64) : Remainder :=
  match pol with
  | .carryRemainder => acc.extractLsb' 0 30
  | .roundAndReset => 0

/-- IntStep (R141): the integer track after one sample, and the emitted sample (R145, R146). -/
def intStep (pol : CarryPolicy) (q : QCoefs) (t : IntTrack) (imm : Sample) : IntTrack × Sample :=
  let acc := IntTrack.acc q t (sampleInt imm)
  let v := shiftedAcc pol acc
  ({ x1 := imm, x2 := t.x1, y1 := wrap32 v, y2 := t.y1, r := nextRemainder pol acc }, wrap16 v)

/-- STEPI: one integer-mode sample on channel `ch` (R147). -/
def execStepi (ch : ChIndex) (imm : Sample) (s : State) : Host.Outcome State Fault Refusal :=
  onChannel ch s fun c =>
    let r := intStep c.pol s.q c.int imm
    (s.setChannel ch { c with int := r.1 }).setRes (resOf16 r.2)

end Sys2Proof.Machine
end

