-- ==== Sys2Proof/Machine/FloatFilter.lean ====
section
/-! DEFINITION. The floating reference filter and the difference channel: Cvt16, FltStep, STEPF, STEPD (43_float_filter.md). -/

namespace Sys2Proof.Machine

/-- Cvt16: a binary64 filter output as a 16-bit sample, and whether the conversion was invalid (R160). -/
def cvt16 (v : F64) : Sample × Bool :=
  if F64.isFinite v then
    let t := F64.truncScaled v 0
    if t < -2 ^ 31 ∨ 2 ^ 31 - 1 < t then (0, true) else (wrap16 t, false)
  else (0, true)

/-- How many binary64 operations FltStep has (R161): five products, four sums. Each has its own draw of a NaN pattern. -/
def fltOps : Nat := 9

/-- The binary64 accumulator of FltStep: (((p0 + p1) + p2) - p3) - p4 (R161). b2 is b0. -/
def FltTrack.acc (nan : Nat → F64) (d : DCoefs) (t : FltTrack) (xf : F64) : F64 :=
  let p0 := F64.mul (nan 0) d.b0 xf
  let p1 := F64.mul (nan 1) d.b1 t.xf1
  let p2 := F64.mul (nan 2) d.b0 t.xf2
  let p3 := F64.mul (nan 3) d.a1 t.yf1
  let p4 := F64.mul (nan 4) d.a2 t.yf2
  F64.sub (nan 8) (F64.sub (nan 7) (F64.add (nan 6) (F64.add (nan 5) p0 p1) p2) p3) p4

/-- What FltStep returns (R161). -/
structure FltResult where
  track : FltTrack
  out   : Sample
  inv   : Bool
deriving DecidableEq, Repr

/-- FltStep (R161): the floating track after one sample, the emitted sample and whether Cvt16 was invalid. The history keeps the
unconverted accumulator. -/
def fltStep (nan : Nat → F64) (d : DCoefs) (t : FltTrack) (imm : Sample) : FltResult :=
  let xf := F64.ofInt (sampleInt imm)
  let acc := FltTrack.acc nan d t xf
  let c := cvt16 acc
  { track := { xf1 := xf, xf2 := t.xf1, yf1 := acc, yf2 := t.yf1 }, out := c.1, inv := c.2 }

/-- The draws of one FltStep are used up. -/
def State.spendFltDraws (s : State) : State := { s with nanDraws := s.nanDraws + fltOps }

/-- STEPF: one floating-reference sample on channel `ch` (R162). -/
def execStepf (ch : ChIndex) (imm : Sample) (s : State) : Host.Outcome State Fault Refusal :=
  onChannel ch s fun c =>
    let r := fltStep s.drawNaN s.d c.flt imm
    (((s.setChannel ch { c with flt := r.track }).setRes (resOf16 r.out)).noteFlags r.inv false).spendFltDraws

/-- STEPD: both tracks of channel `ch` on the same sample; RES <- the wrapped difference of their samples (R165). -/
def execStepd (ch : ChIndex) (imm : Sample) (s : State) : Host.Outcome State Fault Refusal :=
  onChannel ch s fun c =>
    let rf := fltStep s.drawNaN s.d c.flt imm
    let ri := intStep c.pol s.q c.int imm
    (((s.setChannel ch { c with int := ri.1, flt := rf.track }).setRes
      (resOf16 (wrap16 (rf.out.toInt - ri.2.toInt)))).noteFlags rf.inv false).spendFltDraws

end Sys2Proof.Machine
end

