-- ==== Sys2Proof/Machine/Dispatch.lean ====
section
/-! DEFINITION. Dispatch: the meaning of each command. -/

namespace Sys2Proof.Machine

/-- What a command does (R84). -/
def exec (i : Instr) (s : State) : Host.Outcome State Fault Refusal :=
  match i with
  | .nop => Sys2Proof.Machine.execNop s
  | .srst => Sys2Proof.Machine.execSrst s
  | .clrch ch => Sys2Proof.Machine.execClrch ch s
  | .cvt => Sys2Proof.Machine.execCvt s
  | .ldq k => Sys2Proof.Machine.execLdq k s
  | .ldd k => Sys2Proof.Machine.execLdd k s
  | .rdq k => Sys2Proof.Machine.execRdq k s
  | .rdd k => Sys2Proof.Machine.execRdd k s
  | .setfc => Sys2Proof.Machine.execSetfc s
  | .setq => Sys2Proof.Machine.execSetq s
  | .setfs => Sys2Proof.Machine.execSetfs s
  | .ccalc => Sys2Proof.Machine.execCcalc s
  | .rdp p => Sys2Proof.Machine.execRdp p s
  | .stepi ch imm => Sys2Proof.Machine.execStepi ch imm s
  | .stepf ch imm => Sys2Proof.Machine.execStepf ch imm s
  | .stepd ch imm => Sys2Proof.Machine.execStepd ch imm s
  | .rdst ch f => Sys2Proof.Machine.execRdst ch f s
  | .wrst ch f => Sys2Proof.Machine.execWrst ch f s

end Sys2Proof.Machine
end

