-- ==== Sys2Proof/Machine/Port.lean ====
section
/-! DEFINITION. The register port: what one host event does (R50 to R63, R220). -/

namespace Sys2Proof.Machine

/-- A word written to CMD: the command it names runs to completion, or IllegalCommand (R57, R88, R200). -/
def runWord (w : Word) (s : State) : Host.Outcome State Fault Refusal :=
  match decode s.nch w with
  | some i => exec i s
  | none => illegalCommand s

/-- A 32-bit read: its value is observed, and no register changes (R54). -/
def portRead (off : Nat) (s : State) : Host.Outcome State Fault Refusal :=
  match offsetRefusal off with
  | some r => .refused r
  | none => .next { s with observed := s.observed ++ [s.readReg (PortReg.ofOffset off)] }

/-- A 32-bit write: a command where the offset is CMD's, else the register's write effect (R52, R57). -/
def portWrite (off : Nat) (wdata : Word) (s : State) : Host.Outcome State Fault Refusal :=
  match offsetRefusal off with
  | some r => .refused r
  | none =>
    match PortReg.ofOffset off with
    | .cmd => runWord wdata s
    | reg => .next (s.writeReg wdata reg)

/-- One host event (R50, R60, R70). An access of another width is refused (R63). -/
def portStep (e : HostEvent) (s : State) : Host.Outcome State Fault Refusal :=
  match e with
  | .reset => .next s.doReset
  | .read off => portRead off s
  | .write off wdata => portWrite off wdata s
  | .other _ _ => .refused .accessWidth

/-- The first pending event is taken from the list and applied (R60); with none pending nothing changes (log 2). -/
def serveNext (s : State) : Host.Outcome State Fault Refusal :=
  match s.pending with
  | [] => .next s
  | e :: rest => portStep e { s with pending := rest }

/-- The word of an opcode-table row as a write to CMD, put before what is pending. -/
def State.sendWord (s : State) (w : Word) : State := { s with pending := .write 0x0C w :: s.pending }

end Sys2Proof.Machine
end

