-- ==== Sys2Proof/Machine/Step.lean ====
section
/-! DEFINITION. One step of the machine: one host event (R3, R60). -/

namespace Sys2Proof.Machine

/-- One step: the next host event, served whole (R60). -/
def step (s : State) : Host.Outcome State Fault Refusal := serveNext s

/-- `s` with the command word `w` (its low `nbits` bits; a command is 32 bits, R80) as the very next write to CMD. -/
def State.withFetchWord (s : State) (nbits w : Nat) : State := s.sendWord (BitVec.ofNat 32 (w % 2 ^ nbits))

end Sys2Proof.Machine
end

