-- ==== Sys2Proof/Machine/Assembler.lean ====
section
/-! DEFINITION. The text forms of R91 and the pseudo-instructions of R92: a line of program text and the host events it stands
for. It is no part of the engine; it says which transactions the spec's programs are. -/

namespace Sys2Proof.Machine

/-- A decimal numeral: (-1)^neg * num / den, with den a power of ten. -/
structure Decimal where
  neg : Bool
  num : Nat
  den : Nat
deriving DecidableEq, Repr

/-- "the decimal rounded to the nearest binary64, ties to even" (R92). DESIGN CHOICE (log 15): the result keeps the text's minus sign
where it is a zero (`-0.0`, or a negative decimal too small for a nonzero value), and a decimal too large is an infinity. -/
def Decimal.toF64 (x : Decimal) : F64 := F64.round x.neg (x.num * 2 ^ 1074) x.den

/-- One line of program text (R91, R92). -/
inductive AsmLine where
  | mmw (reg : PortReg) (v : Word)
  /-- The expected result, where the line writes one. -/
  | mmr (reg : PortReg) (expected : Option Word)
  | command (i : Instr)
  | opr (v : DWord)
  | oprf (x : Decimal)
  | res
  | setpol (ch : ChIndex) (pol : CarryPolicy)
  | clrst
  | ldcoef (k : Coef) (x : Decimal)
  | setspec (fc : Decimal) (fs : Word) (q : Decimal)
deriving DecidableEq, Repr

/-! ### Expansion (R91, R92) -/

/-- The byte offset of a register of R52. The reserved words have no name; this gives the first of them. -/
def PortReg.offset : PortReg → Nat
  | .id => 0x00
  | .status => 0x04
  | .ctrl => 0x08
  | .cmd => 0x0C
  | .oprLo => 0x10
  | .oprHi => 0x14
  | .resLo => 0x18
  | .resHi => 0x1C
  | .reserved => 0x20

/-- `mmw CMD, <word>`. -/
def cmdEvent (i : Instr) : HostEvent := .write PortReg.cmd.offset (encode i)

/-- `opr <v64>`: the low half, then the high half (R92). -/
def oprEvents (v : DWord) : List HostEvent :=
  [.write PortReg.oprLo.offset (v.extractLsb' 0 32), .write PortReg.oprHi.offset (v.extractLsb' 32 32)]

/-- CTRL with POL[ch] set to a policy, the other bits as read (R92 `setpol`). -/
def withPolicy (t : Word) (ch : ChIndex) : CarryPolicy → Word
  | .carryRemainder => t &&& ~~~(1#32 <<< ch.toNat)
  | .roundAndReset => t ||| (1#32 <<< ch.toNat)

/-- The host events of a line. `t` is what its read of CTRL returns, which only `setpol` uses. -/
def AsmLine.events (t : Word) : AsmLine → List HostEvent
  | .mmw reg v => [.write reg.offset v]
  | .mmr reg _ => [.read reg.offset]
  | .command i => [cmdEvent i]
  | .opr v => oprEvents v
  | .oprf x => oprEvents x.toF64
  | .res => [.read PortReg.resLo.offset, .read PortReg.resHi.offset]
  | .setpol ch pol => [.read PortReg.ctrl.offset, .write PortReg.ctrl.offset (withPolicy t ch pol)]
  | .clrst => [.write PortReg.status.offset 7]
  | .ldcoef k x => oprEvents x.toF64 ++ [cmdEvent (.ldd k)]
  | .setspec fc fs q =>
    oprEvents fc.toF64 ++ [cmdEvent .setfc] ++ oprEvents (resOfU32 fs) ++ [cmdEvent .setfs]
      ++ oprEvents q.toF64 ++ [cmdEvent .setq]

/-! ### Reading a line of text (R91). None is an assembly error. -/

/-- The word collected so far, if any. -/
def flushWord (cur : List Char) : List String := if cur.isEmpty then [] else [String.ofList cur.reverse]

/-- The words and commas of a line, in lower case; `;` starts a comment. -/
def lexLine : List Char → List Char → List String
  | [], cur => flushWord cur
  | c :: cs, cur =>
    if c = ';' then flushWord cur
    else if c = ',' then flushWord cur ++ "," :: lexLine cs []
    else if c.isWhitespace then flushWord cur ++ lexLine cs []
    else lexLine cs (c.toLower :: cur)

/-- The value of a digit in a base up to 16. -/
def digitOf (base : Nat) (c : Char) : Option Nat :=
  let v := if c.isDigit then c.toNat - 48 else if 'a' ≤ c ∧ c ≤ 'f' then c.toNat - 87 else 16
  if v < base then some v else none

/-- The number of a list of digits, continuing from `acc`. -/
def digitsFrom (base : Nat) (acc : Nat) : List Char → Option Nat
  | [] => some acc
  | c :: cs => (digitOf base c).bind fun d => digitsFrom base (acc * base + d) cs

/-- A number of at least one digit. -/
def digits (base : Nat) (cs : List Char) : Option Nat := if cs.isEmpty then none else digitsFrom base 0 cs

/-- A natural number, `0x...` or decimal, below a bound. -/
def natBelow (bound : Nat) (tok : String) : Option Nat :=
  let n := match tok.toList with
    | '0' :: 'x' :: cs => digits 16 cs
    | cs => digits 10 cs
  n.filter (fun v => decide (v < bound))

/-- `<value32>`. -/
def parse32 (tok : String) : Option Word := (natBelow (2 ^ 32) tok).map (BitVec.ofNat 32)

/-- `<v64>`. -/
def parse64 (tok : String) : Option DWord := (natBelow (2 ^ 64) tok).map (BitVec.ofNat 64)

/-- A sample: "decimal -32768..32767, or 0x0000..0xFFFF" (R91). -/
def parseSample (tok : String) : Option Sample :=
  match tok.toList with
  | '-' :: cs => ((digits 10 cs).filter (fun v => decide (v ≤ 32768))).map fun v => BitVec.ofInt 16 (-(v : Int))
  | '0' :: 'x' :: cs => ((digits 16 cs).filter (fun v => decide (v < 2 ^ 16))).map (BitVec.ofNat 16)
  | cs => ((digits 10 cs).filter (fun v => decide (v ≤ 32767))).map (BitVec.ofNat 16)

/-- A channel: `c<ch>` with ch < NCH (R91, R93). -/
def parseChannel (nch : Nat) (tok : String) : Option ChIndex :=
  match tok.toList with
  | 'c' :: cs => ((digits 10 cs).filter (fun v => decide (v < nch ∧ v < 16))).map (BitVec.ofNat 4)
  | _ => none

/-- A coefficient name. -/
def parseCoef : String → Option Coef
  | "b0" => some .b0
  | "b1" => some .b1
  | "b2" => some .b2
  | "a1" => some .a1
  | "a2" => some .a2
  | _ => none

/-- A parameter name. -/
def parseParam : String → Option Param
  | "fc" => some .fc
  | "qf" => some .qf
  | "fs" => some .fs
  | _ => none

/-- A state field name. -/
def parseField : String → Option Field
  | "x1" => some .x1
  | "x2" => some .x2
  | "y1" => some .y1
  | "y2" => some .y2
  | "r" => some .r
  | "xf1" => some .xf1
  | "xf2" => some .xf2
  | "yf1" => some .yf1
  | "yf2" => some .yf2
  | _ => none

/-- A register name of R52. -/
def parseReg : String → Option PortReg
  | "id" => some .id
  | "status" => some .status
  | "ctrl" => some .ctrl
  | "cmd" => some .cmd
  | "opr_lo" => some .oprLo
  | "opr_hi" => some .oprHi
  | "res_lo" => some .resLo
  | "res_hi" => some .resHi
  | _ => none

/-- A policy name of `setpol` (R92). -/
def parsePolicy : String → Option CarryPolicy
  | "cr" => some .carryRemainder
  | "rr" => some .roundAndReset
  | _ => none

/-- The magnitude of a decimal: digits, or digits, a point and digits. -/
def parseMagnitude (neg : Bool) (cs : List Char) : Option Decimal :=
  let whole := cs.takeWhile (fun c => decide (c ≠ '.'))
  let tail := cs.dropWhile (fun c => decide (c ≠ '.'))
  match tail with
  | [] => (digits 10 whole).map fun n => { neg := neg, num := n, den := 1 }
  | _ :: frac =>
    (digits 10 whole).bind fun _ => (digits 10 frac).bind fun _ =>
      (digits 10 (whole ++ frac)).map fun n => { neg := neg, num := n, den := 10 ^ frac.length }

/-- `<decimal>`. -/
def parseDecimal (tok : String) : Option Decimal :=
  match tok.toList with
  | '-' :: cs => parseMagnitude true cs
  | cs => parseMagnitude false cs

/-- A command line without an operand. -/
def parsePlain : String → Option AsmLine
  | "nop" => some (.command .nop)
  | "srst" => some (.command .srst)
  | "cvt" => some (.command .cvt)
  | "setfc" => some (.command .setfc)
  | "setq" => some (.command .setq)
  | "setfs" => some (.command .setfs)
  | "ccalc" => some (.command .ccalc)
  | "res" => some .res
  | "clrst" => some .clrst
  | _ => none

/-- A line with one operand. -/
def parseOne (nch : Nat) (name a : String) : Option AsmLine :=
  match name with
  | "clrch" => (parseChannel nch a).map fun ch => .command (.clrch ch)
  | "ldq" => ((parseCoef a).filter Coef.loadable).map fun k => .command (.ldq k)
  | "ldd" => ((parseCoef a).filter Coef.loadable).map fun k => .command (.ldd k)
  | "rdq" => (parseCoef a).map fun k => .command (.rdq k)
  | "rdd" => (parseCoef a).map fun k => .command (.rdd k)
  | "rdp" => (parseParam a).map fun p => .command (.rdp p)
  | "mmr" => (parseReg a).map fun reg => .mmr reg none
  | "opr" => (parse64 a).map .opr
  | "oprf" => (parseDecimal a).map .oprf
  | _ => none

/-- A line with two operands. -/
def parseTwo (nch : Nat) (name a b : String) : Option AsmLine :=
  match name with
  | "stepi" => (parseChannel nch a).bind fun ch => (parseSample b).map fun x => .command (.stepi ch x)
  | "stepf" => (parseChannel nch a).bind fun ch => (parseSample b).map fun x => .command (.stepf ch x)
  | "stepd" => (parseChannel nch a).bind fun ch => (parseSample b).map fun x => .command (.stepd ch x)
  | "rdst" => (parseChannel nch a).bind fun ch => (parseField b).map fun f => .command (.rdst ch f)
  | "wrst" => (parseChannel nch a).bind fun ch => (parseField b).map fun f => .command (.wrst ch f)
  | "mmw" => (parseReg a).bind fun reg => (parse32 b).map fun v => .mmw reg v
  | "setpol" => (parseChannel nch a).bind fun ch => (parsePolicy b).map fun pol => .setpol ch pol
  | "ldcoef" => ((parseCoef a).filter Coef.loadable).bind fun k => (parseDecimal b).map fun x => .ldcoef k x
  | _ => none

/-- The line of a list of words and commas. -/
def parseWords (nch : Nat) : List String → Option AsmLine
  | [name] => parsePlain name
  | [name, a] => parseOne nch name a
  | ["mmr", a, "->", v] => (parseReg a).bind fun reg => (parse32 v).map fun w => .mmr reg (some w)
  | [name, a, ",", b] => parseTwo nch name a b
  | ["setspec", fc, ",", fs, ",", q] =>
    (parseDecimal fc).bind fun fc => (parse32 fs).bind fun fs => (parseDecimal q).map fun q => .setspec fc fs q
  | _ => none

/-- A line of text on an engine with `nch` channels: no line where it is blank or a comment, none where it is an assembly
error, which "produces no word" (R91). -/
def assembleLine (nch : Nat) (text : String) : Option (List AsmLine) :=
  match lexLine text.toList [] with
  | [] => some []
  | toks => (parseWords nch toks).map fun l => [l]

end Sys2Proof.Machine
end

