-- ==== Sys2Proof/Safety.lean ====
section
/-! DEFINITION. The terms that claims use: well-formed states and events, legal words as R88 lists them, runs (R71), and what a
command may leave unchanged. -/

namespace Sys2Proof

/-! ### Match and mask (R85) -/

/-- The match and mask of a command's opcode (R85). -/
def Instr.matchMask : Instr → Word × Word
  | .nop => (0x00000000, 0xFFFFFFFF)
  | .srst => (0x01000000, 0xFFFFFFFF)
  | .clrch _ => (0x02000000, 0xFF0FFFFF)
  | .cvt => (0x10000000, 0xFFFFFFFF)
  | .ldq _ => (0x11000000, 0xFFF0FFFF)
  | .ldd _ => (0x12000000, 0xFFF0FFFF)
  | .rdq _ => (0x13000000, 0xFFF0FFFF)
  | .rdd _ => (0x14000000, 0xFFF0FFFF)
  | .setfc => (0x20000000, 0xFFFFFFFF)
  | .setq => (0x21000000, 0xFFFFFFFF)
  | .setfs => (0x22000000, 0xFFFFFFFF)
  | .ccalc => (0x23000000, 0xFFFFFFFF)
  | .rdp _ => (0x24000000, 0xFFF0FFFF)
  | .stepi _ _ => (0x30000000, 0xFF0F0000)
  | .stepf _ _ => (0x31000000, 0xFF0F0000)
  | .stepd _ _ => (0x32000000, 0xFF0F0000)
  | .rdst _ _ => (0x38000000, 0xFF00FFFF)
  | .wrst _ _ => (0x39000000, 0xFF00FFFF)

/-! ### Which commands touch what -/

/-- The channel a command works on, where it uses CH (R84). -/
def Instr.channel? : Instr → Option ChIndex
  | .clrch ch | .stepi ch _ | .stepf ch _ | .stepd ch _ | .rdst ch _ | .wrst ch _ => some ch
  | .nop | .srst | .cvt | .ldq _ | .ldd _ | .rdq _ | .rdd _ => none
  | .setfc | .setq | .setfs | .ccalc | .rdp _ => none

/-- "The commands CVT, RDQ, RDD, RDP, STEPI, STEPF, STEPD and RDST write it" (R25). -/
def Instr.writesRes : Instr → Bool
  | .cvt | .rdq _ | .rdd _ | .rdp _ | .stepi _ _ | .stepf _ _ | .stepd _ _ | .rdst _ _ => true
  | .nop | .srst | .clrch _ | .ldq _ | .ldd _ | .setfc | .setq | .setfs | .ccalc | .wrst _ _ => false

/-- The commands that raise INV (R201). -/
def Instr.raisesInv : Instr → Bool
  | .cvt | .ldd _ | .ccalc | .stepf _ _ | .stepd _ _ => true
  | .nop | .srst | .clrch _ | .ldq _ | .rdq _ | .rdd _ | .setfc | .setq | .setfs | .rdp _ => false
  | .stepi _ _ | .rdst _ _ | .wrst _ _ => false

/-- The commands that raise SAT (R201). -/
def Instr.raisesSat : Instr → Bool
  | .cvt | .ldd _ | .ccalc => true
  | .nop | .srst | .clrch _ | .ldq _ | .rdq _ | .rdd _ | .setfc | .setq | .setfs | .rdp _ => false
  | .stepi _ _ | .stepf _ _ | .stepd _ _ | .rdst _ _ | .wrst _ _ => false

end Sys2Proof

namespace Sys2Proof.Machine

/-- The invariant of the engine: it has one or two channel slots (R6: NCH in {1, 2}). -/
def State.Inv (s : State) : Prop := s.nch = 1 ∨ s.nch = 2

/-- The event is one the port has (R50, R63): a reset, or a 32-bit access at a multiple of 4 in [0x00, 0x40). -/
def HostEvent.onPort : HostEvent → Bool
  | .reset => true
  | .read off => decide (off < 0x40 ∧ off % 4 = 0)
  | .write off _ => decide (off < 0x40 ∧ off % 4 = 0)
  | .other _ _ => false

/-! ### Legal words, as R84 and R88 list them -/

/-- A row of R84: an opcode, whether it uses CH, its SEL values where it uses SEL, whether it uses IMM. -/
structure OpRow where
  op      : BitVec 8
  usesCh  : Bool
  sels    : Option (List (BitVec 4))
  usesImm : Bool
deriving DecidableEq, Repr

/-- The rows of R84 with OP below 0x20. -/
def opRowsLow : List OpRow :=
  [{ op := 0x00, usesCh := false, sels := none, usesImm := false },
   { op := 0x01, usesCh := false, sels := none, usesImm := false },
   { op := 0x02, usesCh := true, sels := none, usesImm := false },
   { op := 0x10, usesCh := false, sels := none, usesImm := false },
   { op := 0x11, usesCh := false, sels := some [0, 1, 3, 4], usesImm := false },
   { op := 0x12, usesCh := false, sels := some [0, 1, 3, 4], usesImm := false },
   { op := 0x13, usesCh := false, sels := some [0, 1, 2, 3, 4], usesImm := false },
   { op := 0x14, usesCh := false, sels := some [0, 1, 2, 3, 4], usesImm := false }]

/-- The rows of R84 with OP from 0x20 on. -/
def opRowsHigh : List OpRow :=
  [{ op := 0x20, usesCh := false, sels := none, usesImm := false },
   { op := 0x21, usesCh := false, sels := none, usesImm := false },
   { op := 0x22, usesCh := false, sels := none, usesImm := false },
   { op := 0x23, usesCh := false, sels := none, usesImm := false },
   { op := 0x24, usesCh := false, sels := some [0, 1, 2], usesImm := false },
   { op := 0x30, usesCh := true, sels := none, usesImm := true },
   { op := 0x31, usesCh := true, sels := none, usesImm := true },
   { op := 0x32, usesCh := true, sels := none, usesImm := true },
   { op := 0x38, usesCh := true, sels := some [0, 1, 2, 3, 4, 5, 6, 7, 8], usesImm := false },
   { op := 0x39, usesCh := true, sels := some [0, 1, 2, 3, 4, 5, 6, 7, 8], usesImm := false }]

/-- Conditions 1 to 4 of R88 for one row, on the bits of the word. -/
def OpRow.admits (row : OpRow) (nch : Nat) (w : Word) : Bool :=
  decide (w.extractLsb' 24 8 = row.op)
    && (if row.usesCh then decide ((w.extractLsb' 20 4).toNat < nch) else decide (w.extractLsb' 20 4 = 0))
    && (match row.sels with
        | some sels => sels.contains (w.extractLsb' 16 4)
        | none => decide (w.extractLsb' 16 4 = 0))
    && (row.usesImm || decide (w.extractLsb' 0 16 = 0))

/-- "A command word w is legal if and only if all of these hold" (R88). -/
def legalWord (nch : Nat) (w : Word) : Bool := (opRowsLow ++ opRowsHigh).any fun row => row.admits nch w

/-! ### Runs (R71) -/

/-- "A run is their application in order" (R71): a list of host events applied to a state, stopping at a refusal. -/
def runEvents : List HostEvent → State → Host.Outcome State Fault Refusal
  | [], s => .next s
  | e :: es, s =>
    match portStep e s with
    | .next t => runEvents es t
    | .fault r => .fault r
    | .refused r => .refused r

/-- `n` steps, stopping at a refusal. -/
def stepN : Nat → State → Host.Outcome State Fault Refusal
  | 0, s => .next s
  | n + 1, s =>
    match step s with
    | .next t => stepN n t
    | .fault r => .fault r
    | .refused r => .refused r

/-! ### Rounding (R10) -/

/-- `p` is the binary64 value nearest to num / den units of 2^-1074, and the even one of two equally near values: "rounded once to
nearest with ties to even" (R10). -/
def F64.IsNearestEven (num : Int) (den : Nat) (p : F64) : Prop :=
  F64.isFinite p = true ∧
  ∀ z : F64, F64.isFinite z = true →
    (num - F64.scaled p * den).natAbs ≤ (num - F64.scaled z * den).natAbs ∧
    ((num - F64.scaled p * den).natAbs = (num - F64.scaled z * den).natAbs → F64.scaled z ≠ F64.scaled p →
      F64.fracField p % 2 = 0)

/-- The least magnitude, in units of 2^-1074, that rounds to an infinity: halfway between the largest finite value and 2^1024. -/
def F64.overflowBound : Nat := (2 ^ 54 - 1) * 2 ^ 2044

/-! ### Reset (R35, R220) -/

/-- Every element of the state vector has the value in R35's last column. -/
def State.IsReset (s : State) : Prop :=
  s.status.ill = false ∧ s.status.inv = false ∧ s.status.sat = false ∧
  s.opr = 0x0000000000000000#64 ∧ s.res = 0x0000000000000000#64 ∧
  s.q.b0 = 0x00000000#32 ∧ s.q.b1 = 0x00000000#32 ∧ s.q.a1 = 0x00000000#32 ∧ s.q.a2 = 0x00000000#32 ∧
  s.d.b0 = 0x0000000000000000#64 ∧ s.d.b1 = 0x0000000000000000#64 ∧
  s.d.a1 = 0x0000000000000000#64 ∧ s.d.a2 = 0x0000000000000000#64 ∧
  s.p.fc = 0x40C3880000000000#64 ∧ s.p.qf = 0x3FE69FBE76C8B439#64 ∧ s.p.fs = 0x0000BB80#32 ∧
  ∀ c ∈ s.channels,
    c.pol = .carryRemainder ∧
    c.int.x1 = 0x0000#16 ∧ c.int.x2 = 0x0000#16 ∧ c.int.y1 = 0x00000000#32 ∧ c.int.y2 = 0x00000000#32 ∧ c.int.r = 0#30 ∧
    c.flt.xf1 = 0x0000000000000000#64 ∧ c.flt.xf2 = 0x0000000000000000#64 ∧
    c.flt.yf1 = 0x0000000000000000#64 ∧ c.flt.yf2 = 0x0000000000000000#64

/-! ### What a step serves -/

/-- The step serves event `e`. -/
def State.serves (s : State) (e : HostEvent) : Prop := ∃ rest, s.pending = e :: rest

/-- The step serves a write to CMD whose word stands for command `i`. -/
def State.runs (s : State) (i : Instr) : Prop := ∃ w, s.serves (.write 0x0C w) ∧ decode s.nch w = some i

/-! ### Sequences of commands -/

/-- The samples that STEPI emits on channel `ch` (RES after each), as a list of commands runs in order; none where some command
does not answer a next state. -/
def stepiOutputs (ch : ChIndex) : List Instr → State → Option (List DWord)
  | [], _ => some []
  | i :: is, s =>
    match exec i s with
    | .next t =>
      match i with
      | .stepi c _ => if c = ch then (stepiOutputs ch is t).map (t.res :: ·) else stepiOutputs ch is t
      | _ => stepiOutputs ch is t
    | .fault _ => none
    | .refused _ => none

/-- A float input history that samples made: xf1 and xf2 each hold a 16-bit sample, converted (R30: "the previous input
sample, converted exactly"). -/
def FltTrack.inputsAreSamples (t : FltTrack) : Prop :=
  ∃ x y : Sample, t.xf1 = F64.ofInt x.toInt ∧ t.xf2 = F64.ofInt y.toInt

/-! ### Frames -/

/-- The model's own input and observation are unchanged (R57: a command reads no further event and answers no read). -/
def SameHostSide (s t : State) : Prop := t.pending = s.pending ∧ t.observed = s.observed

/-- Every coefficient and parameter register is unchanged. -/
def SameFilterSetup (s t : State) : Prop := t.q = s.q ∧ t.d = s.d ∧ t.p = s.p

/-- Every channel slot and policy other than channel `ch`'s is unchanged, and so is the number of channels (R28). -/
def SameOtherChannels (ch : Nat) (s t : State) : Prop :=
  t.nch = s.nch ∧ ∀ d, d ≠ ch → t.channels[d]? = s.channels[d]?

/-- The Q30 form of every coefficient is the conversion of its binary64 form (R26: "written together by LDD and CCALC"). -/
def State.Coherent (s : State) : Prop := s.q = quantize s.d

end Sys2Proof.Machine
end

