-- ==== Sys2Proof/Certificates/Slice0/Obligations.lean ====
section
/-! DEFINITION. The statements about biquad_iir_engine. Each docstring names the rules it formalises. -/

open Sys2Proof Sys2Proof.Machine

/-! ### Reset -/

/-- R35, R220: the state after reset, with NCH = 2 (R6: "2 by default"). -/
def Obligations.ResetStateHasTheSpecifiedValues : Prop :=
  State.reset.IsReset ∧ State.reset.nch = 2

/-- R220, R181: from any state the reset input and SRST each set every element of R35 to its reset value; the number of channels is
kept, and so are the events still pending and the reads observed. The last part, and that the draws of NaN patterns go on, are the
model's choice (log 12). -/
def Obligations.ResetAndSrstGiveTheResetState : Prop :=
  ∀ s : State,
    (∀ rest, s.pending = .reset :: rest →
      ∃ t, step s = .next t ∧ t.IsReset ∧ t.nch = s.nch ∧ t.pending = rest ∧ t.observed = s.observed ∧
        t.nanDraws = s.nanDraws) ∧
    (∃ t, exec .srst s = .next t ∧ t.IsReset ∧ t.nch = s.nch ∧ SameHostSide s t ∧ t.nanDraws = s.nanDraws)

/-! ### The port -/

/-- R57: when the next event is a write to CMD of a word that decodes to `i`, the step is `exec i` at the state with that event
taken from the list. -/
def Obligations.StepRunsTheDecodedCommand : Prop :=
  ∀ (s : State) (w : Word) (rest : List HostEvent) (i : Instr),
    s.pending = .write 0x0C w :: rest → decode s.nch w = some i →
      step s = exec i { s with pending := rest }

/-- R200, R88: a word that R88 does not admit sets STATUS.ILL and changes nothing else, and the step completes. -/
def Obligations.IllegalWordSetsIllAndNothingElse : Prop :=
  ∀ (s : State) (w : Word) (rest : List HostEvent),
    s.pending = .write 0x0C w :: rest → legalWord s.nch w = false →
      step s = .next { s with pending := rest, status := { s.status with ill := true } }

/-- R204, R57, R88: a command that is legal on the engine runs to a next state, reads no further event, answers no read, and never
sets ILL; a term that no legal word stands for (a load of b2, a channel the engine does not have) is IllegalCommand (log 10). -/
def Obligations.LegalCommandsCompleteAndOthersAreIllegal : Prop :=
  ∀ (i : Instr) (s : State),
    (i.wf s.nch = true →
      ∃ t, exec i s = .next t ∧ SameHostSide s t ∧ t.nch = s.nch ∧ (t.status.ill = true → s.status.ill = true)) ∧
    (i.wf s.nch = false → exec i s = .next { s with status := { s.status with ill := true } })

/-- R65, R204: every event the port has is served in one step, in every state: the event is taken from the list, and the number
of channels stays. -/
def Obligations.EveryPortEventCompletes : Prop :=
  ∀ (s : State) (e : HostEvent) (rest : List HostEvent),
    s.pending = e :: rest → e.onPort = true →
      ∃ t, step s = .next t ∧ t.pending = rest ∧ t.nch = s.nch

/-- R60, R71: the machine's steps serve the pending transactions one at a time and in their order: serving the first of them, `es`, is
their application in order to the state, whatever comes after them. -/
def Obligations.StepsServeTransactionsInOrder : Prop :=
  ∀ (es rest : List HostEvent) (s : State), s.pending = es ++ rest →
    stepN es.length s = runEvents es { s with pending := rest }

/-- R63: a misaligned access, and one narrower or wider than 32 bits, is refused: it has no next state. -/
def Obligations.AccessesThePortLacksAreRefused : Prop :=
  ∀ (s : State) (rest : List HostEvent) (off : Nat),
    (off % 4 ≠ 0 → s.pending = .read off :: rest → ∃ r, step s = .refused r) ∧
    (off % 4 ≠ 0 → ∀ wdata, s.pending = .write off wdata :: rest → ∃ r, step s = .refused r) ∧
    (∀ width, s.pending = .other width off :: rest → ∃ r, step s = .refused r)

/-- R54, R52, R53: a read has no side effect, and returns the value of R52's table; two reads of one offset, with any reads and no
write between them, return the same value. STATUS is {29'b0, SAT, INV, ILL}; bit b of CTRL is 1 exactly where channel b exists and
its policy is RoundAndReset. -/
def Obligations.ReadsReturnTheTableValueAndChangeNothing : Prop :=
  ∀ (s : State) (off : Nat) (rest : List HostEvent), off < 0x40 → off % 4 = 0 →
    ∃ v : Word,
      (s.pending = .read off :: rest →
        step s = .next { s with pending := rest, observed := s.observed ++ [v] }) ∧
      (∀ offs : List Nat, (∀ o ∈ offs, o < 0x40 ∧ o % 4 = 0) →
        ∃ vs, runEvents (.read off :: (offs.map .read ++ [.read off])) s
          = .next { s with observed := s.observed ++ v :: (vs ++ [v]) }) ∧
      (off = 0x00 → v = 0x42510007#32) ∧
      (off = 0x04 → v.getLsbD 0 = s.status.ill ∧ v.getLsbD 1 = s.status.inv ∧ v.getLsbD 2 = s.status.sat ∧
        ∀ b, 3 ≤ b → v.getLsbD b = false) ∧
      (off = 0x08 → ∀ b, b < 32 →
        (v.getLsbD b = true ↔ ∃ c, s.channels[b]? = some c ∧ c.pol = .roundAndReset)) ∧
      (off = 0x0C → v = 0#32) ∧
      (off = 0x10 → v = s.opr.extractLsb' 0 32) ∧
      (off = 0x14 → v = s.opr.extractLsb' 32 32) ∧
      (off = 0x18 → v = s.res.extractLsb' 0 32) ∧
      (off = 0x1C → v = s.res.extractLsb' 32 32) ∧
      (0x20 ≤ off → v = 0#32)

/-- R55: a write to STATUS clears the flags where wdata[2:0] has a 1 and sets none; wdata[31:3] is ignored, and nothing else
changes. -/
def Obligations.StatusWriteClearsOnes : Prop :=
  ∀ (s : State) (w : Word) (rest : List HostEvent), s.pending = .write 0x04 w :: rest →
    ∃ f : Status, step s = .next { s with pending := rest, status := f } ∧
      (f.ill = true ↔ s.status.ill = true ∧ w.getLsbD 0 = false) ∧
      (f.inv = true ↔ s.status.inv = true ∧ w.getLsbD 1 = false) ∧
      (f.sat = true ↔ s.status.sat = true ∧ w.getLsbD 2 = false)

/-- R56, R23: a write to CTRL sets POL[c] to wdata[c] for every c < NCH, 1 being RoundAndReset; no slot, coefficient or flag
changes. -/
def Obligations.CtrlWriteSetsEveryPolicy : Prop :=
  ∀ (s : State) (w : Word) (rest : List HostEvent), s.pending = .write 0x08 w :: rest →
    ∃ cs : List Channel, step s = .next { s with pending := rest, channels := cs } ∧ cs.length = s.nch ∧
      ∀ (c : Nat) (old : Channel), s.channels[c]? = some old →
        cs[c]? = some { old with pol := if w.getLsbD c then .roundAndReset else .carryRemainder }

/-- R58: each half of OPR is written alone; the other half, and everything else, stays. -/
def Obligations.OprHalvesAreWrittenAlone : Prop :=
  ∀ (s : State) (w : Word) (rest : List HostEvent),
    (s.pending = .write 0x10 w :: rest →
      ∃ v : DWord, step s = .next { s with pending := rest, opr := v } ∧
        v.extractLsb' 0 32 = w ∧ v.extractLsb' 32 32 = s.opr.extractLsb' 32 32) ∧
    (s.pending = .write 0x14 w :: rest →
      ∃ v : DWord, step s = .next { s with pending := rest, opr := v } ∧
        v.extractLsb' 32 32 = w ∧ v.extractLsb' 0 32 = s.opr.extractLsb' 0 32)

/-- R59: a write to ID, RES_LO, RES_HI or a reserved offset has no effect, and a read of a reserved offset returns 0. The last two
clauses are the model's reading of R59 and I15, log 9: R59 says only that an access outside the 64-byte window does not reach the
engine and is the platform's concern; the model refuses it as `outsideWindow`, at a misaligned offset too. -/
def Obligations.IgnoredAndOutsideAccesses : Prop :=
  ∀ (s : State) (off : Nat) (rest : List HostEvent),
    (∀ w, (off = 0x00 ∨ off = 0x18 ∨ off = 0x1C ∨ (0x20 ≤ off ∧ off < 0x40 ∧ off % 4 = 0)) →
      s.pending = .write off w :: rest → step s = .next { s with pending := rest }) ∧
    ((0x20 ≤ off ∧ off < 0x40 ∧ off % 4 = 0) → s.pending = .read off :: rest →
      step s = .next { s with pending := rest, observed := s.observed ++ [0#32] }) ∧
    (0x40 ≤ off → s.pending = .read off :: rest → step s = .refused .outsideWindow) ∧
    (0x40 ≤ off → ∀ w, s.pending = .write off w :: rest → step s = .refused .outsideWindow)

/-- R62, R64: byte i of OPR and of RES, little-endian, at window offsets 0x10 + i and 0x18 + i; the host sees the window's bytes from
BQE_BASE on, and no byte of the engine anywhere else. -/
def Obligations.WindowBytesAreLittleEndian : Prop :=
  ∀ s : State,
    (∀ i, i < 8 → s.windowByte (0x10 + i) = some (s.opr.extractLsb' (8 * i) 8) ∧
      s.windowByte (0x18 + i) = some (s.res.extractLsb' (8 * i) 8)) ∧
    (∀ off, off < 0x40 → s.hostByte (Config.bqeBase + off) = s.windowByte off) ∧
    (∀ addr, addr < Config.bqeBase ∨ Config.bqeBase + 0x40 ≤ addr → s.hostByte addr = none)

/-! ### Encoding -/

/-- R81 to R88: decoding the word of any command that is legal with NCH = nch gives the command back, with every operand. -/
def Obligations.DecodeOfEncodeIsTheCommand : Prop :=
  ∀ (nch : Nat) (i : Instr), i.wf nch = true → decode nch (encode i) = some i

/-- R88, R89: a word that decodes is the word of its command, and that command is legal: no two words stand for one command. -/
def Obligations.EncodeOfDecodeIsTheWord : Prop :=
  ∀ (nch : Nat) (w : Word) (i : Instr), decode nch w = some i → encode i = w ∧ i.wf nch = true

/-- R88: a word satisfies conditions 1 to 4 of R88 exactly where it decodes to a command. -/
def Obligations.WordsDecodeExactlyWhereLegal : Prop :=
  ∀ (nch : Nat) (w : Word), (∃ i, decode nch w = some i) ↔ legalWord nch w = true

/-- R85: a legal word carries the match of exactly one opcode's mask, its own command's. -/
def Obligations.MatchAndMaskSelectTheOpcode : Prop :=
  ∀ (nch : Nat) (w : Word) (i j : Instr), decode nch w = some i →
    (w &&& j.matchMask.2 = j.matchMask.1 ↔ i.opcode = j.opcode)

/-- R93: the worked encodings, as words and as text. -/
def Obligations.WorkedEncodingsDecode : Prop :=
  decode 2 0x3010FF9C = some (.stepi 1 (BitVec.ofInt 16 (-100))) ∧
  decode 2 0x30000064 = some (.stepi 0 100) ∧
  decode 2 0x32108000 = some (.stepd 1 0x8000) ∧
  decode 2 0x12030000 = some (.ldd .a1) ∧
  decode 2 0x13020000 = some (.rdq .b2) ∧
  decode 2 0x38180000 = some (.rdst 1 .yf2) ∧
  decode 2 0x02100000 = some (.clrch 1) ∧
  decode 2 0x11020000 = none ∧ assembleLine 2 "ldq b2" = none ∧
  decode 2 0x30200000 = none ∧ assembleLine 2 "stepi c2, 0" = none ∧
  assembleLine 2 "stepi c1, -100" = some [.command (.stepi 1 0xFF9C)] ∧
  assembleLine 2 "stepi c0, 100" = some [.command (.stepi 0 0x0064)] ∧
  assembleLine 2 "stepd c1, 0x8000" = some [.command (.stepd 1 0x8000)] ∧
  assembleLine 2 "ldd a1" = some [.command (.ldd .a1)] ∧
  assembleLine 2 "rdq b2" = some [.command (.rdq .b2)] ∧
  assembleLine 2 "rdst c1, yf2" = some [.command (.rdst 1 .yf2)] ∧
  assembleLine 2 "clrch c1" = some [.command (.clrch 1)]

/-- R91: a command line never assembles to an illegal command. It speaks of the command lines alone: `mmw CMD, <word>` writes any
word the text gives, and the pseudo-instructions are in PseudoInstructionsHaveTheirEffect. -/
def Obligations.AssembledCommandsAreLegal : Prop :=
  ∀ (nch : Nat) (text : String) (i : Instr), assembleLine nch text = some [.command i] → i.wf nch = true

/-- R92: what the pseudo-instructions leave, run from any state: opr, oprf, res, setpol, clrst, ldcoef and setspec. The pattern of a
decimal is `Decimal.toF64`'s, whose zero keeps the text's sign and whose overflow is an infinity: the model's choice (log 15). -/
def Obligations.PseudoInstructionsHaveTheirEffect : Prop :=
  ∀ s : State,
    (∀ (t : Word) (v : DWord), runEvents (AsmLine.events t (.opr v)) s = .next { s with opr := v }) ∧
    (∀ (t : Word) (x : Decimal), runEvents (AsmLine.events t (.oprf x)) s = .next { s with opr := x.toF64 }) ∧
    (∀ t : Word, runEvents (AsmLine.events t .res) s
      = .next { s with observed := s.observed ++ [s.res.extractLsb' 0 32, s.res.extractLsb' 32 32] }) ∧
    (∀ (ch : ChIndex) (pol : CarryPolicy) (c : Channel), s.Inv → s.channels[ch.toNat]? = some c →
      runEvents (AsmLine.events (s.readReg .ctrl) (.setpol ch pol)) s
        = .next { s with observed := s.observed ++ [s.readReg .ctrl],
                         channels := s.channels.set ch.toNat { c with pol := pol } }) ∧
    (∀ t : Word, runEvents (AsmLine.events t .clrst) s
      = .next { s with status := { ill := false, inv := false, sat := false } }) ∧
    (∀ (t : Word) (k : Coef) (x : Decimal), k ≠ .b2 →
      runEvents (AsmLine.events t (.ldcoef k x)) s = exec (.ldd k) { s with opr := x.toF64 }) ∧
    (∀ (t : Word) (fc q : Decimal) (fs : Word),
      runEvents (AsmLine.events t (.setspec fc fs q)) s
        = .next { s with opr := q.toF64, p := { fc := fc.toF64, qf := q.toF64, fs := fs } })

/-! ### Whole-machine rules -/

/-- R6, R23: NCH is 1 or 2 and no step changes it; the bits of CTRL above NCH, and those of STATUS above 2, read as 0. -/
def Obligations.EveryStepKeepsTheInvariant : Prop :=
  ∀ s t : State, s.Inv → step s = .next t →
    t.Inv ∧ t.nch = s.nch ∧ (t.readReg .ctrl).toNat < 2 ^ t.nch ∧ (t.readReg .status).toNat < 2 ^ 3

/-- The reset state meets the invariants that the other statements say every step keeps. -/
def Obligations.ResetMeetsTheInvariants : Prop :=
  State.reset.Inv ∧ State.reset.Coherent ∧ ∀ c ∈ State.reset.channels, c.flt.inputsAreSamples

/-- R22, R202: a flag that is set stays set, unless the step serves a write of 1 to its bit of STATUS, the reset input, or SRST. -/
def Obligations.FlagsAreClearedOnlyByTheHost : Prop :=
  ∀ s t : State, step s = .next t →
    (s.status.ill = true → t.status.ill = false →
      (∃ w, s.serves (.write 0x04 w) ∧ w.getLsbD 0 = true) ∨ s.serves .reset ∨ s.runs .srst) ∧
    (s.status.inv = true → t.status.inv = false →
      (∃ w, s.serves (.write 0x04 w) ∧ w.getLsbD 1 = true) ∨ s.serves .reset ∨ s.runs .srst) ∧
    (s.status.sat = true → t.status.sat = false →
      (∃ w, s.serves (.write 0x04 w) ∧ w.getLsbD 2 = true) ∨ s.serves .reset ∨ s.runs .srst)

/-- R201, R203: a flag that is clear is set only by the events listed: ILL by an illegal word, INV by CVT, LDD, CCALC, STEPF or
STEPD, SAT by CVT, LDD or CCALC. -/
def Obligations.FlagsAreSetOnlyByTheListedCommands : Prop :=
  ∀ s t : State, step s = .next t →
    (s.status.ill = false → t.status.ill = true →
      ∃ w, s.serves (.write 0x0C w) ∧ legalWord s.nch w = false) ∧
    (s.status.inv = false → t.status.inv = true → ∃ i, s.runs i ∧ i.raisesInv = true) ∧
    (s.status.sat = false → t.status.sat = true → ∃ i, s.runs i ∧ i.raisesSat = true)

/-- R25 (and R220 for reset and SRST): RES changes only where the step runs CVT, RDQ, RDD, RDP, STEPI, STEPF, STEPD or RDST, or
resets. -/
def Obligations.ResIsWrittenOnlyByTheListedCommands : Prop :=
  ∀ s t : State, step s = .next t → t.res ≠ s.res →
    (∃ i, s.runs i ∧ i.writesRes = true) ∨ s.serves .reset ∨ s.runs .srst

/-- R24, R58, R23, R56, R26, R27 (and R220 for reset and SRST): OPR changes only by a write of OPR_LO or OPR_HI, POL only by a write
of CTRL, the coefficients only by LDQ, LDD or CCALC, the parameters only by SETFC, SETQ or SETFS, or each by a reset. -/
def Obligations.EachRegisterHasItsWriters : Prop :=
  ∀ s t : State, step s = .next t → ¬ s.serves .reset → ¬ s.runs .srst →
    (t.opr ≠ s.opr → ∃ w, s.serves (.write 0x10 w) ∨ s.serves (.write 0x14 w)) ∧
    (t.channels.map Channel.pol ≠ s.channels.map Channel.pol → ∃ w, s.serves (.write 0x08 w)) ∧
    (t.q ≠ s.q → (∃ k, s.runs (.ldq k) ∨ s.runs (.ldd k)) ∨ s.runs .ccalc) ∧
    (t.d ≠ s.d → (∃ k, s.runs (.ldd k)) ∨ s.runs .ccalc) ∧
    (t.p ≠ s.p → s.runs .setfc ∨ s.runs .setq ∨ s.runs .setfs)

/-- R28: a step that runs a command other than SRST changes at most the slot and policy of the channel the command names, and none
where it names none. -/
def Obligations.CommandsLeaveOtherChannels : Prop :=
  ∀ (s t : State) (i : Instr), s.runs i → i ≠ .srst → step s = .next t →
    t.nch = s.nch ∧ ∀ d, (∀ ch, i.channel? = some ch → d ≠ ch.toNat) → t.channels[d]? = s.channels[d]?

/-- R26: the Q30 form of each coefficient stays the conversion of its binary64 form through every step but an LDQ. -/
def Obligations.FormsAgreeUntilAnLdq : Prop :=
  ∀ s t : State, s.Coherent → step s = .next t → (∀ k, ¬ s.runs (.ldq k)) → t.Coherent

/-- R30: xf1 and xf2 of every slot stay 16-bit samples, converted, through every step but a WRST of one of them. -/
def Obligations.FloatInputsStaySamples : Prop :=
  ∀ s t : State, (∀ c ∈ s.channels, c.flt.inputsAreSamples) → step s = .next t →
    (∀ ch, ¬ s.runs (.wrst ch .xf1) ∧ ¬ s.runs (.wrst ch .xf2)) →
    ∀ c ∈ t.channels, c.flt.inputsAreSamples

/-! ### Control and channel state -/

/-- R180: NOP leaves the whole state as it was. -/
def Obligations.NopLeavesTheWholeState : Prop :=
  ∀ s : State, exec .nop s = .next s

/-- R182: CLRCH zeroes both tracks of its slot and keeps POL, the other slots and everything else. -/
def Obligations.ClrchZeroesItsSlotAlone : Prop :=
  ∀ (s : State) (ch : ChIndex) (c : Channel), s.channels[ch.toNat]? = some c →
    ∃ cs : List Channel, exec (.clrch ch) s = .next { s with channels := cs } ∧ cs.length = s.nch ∧
      (∀ d, d ≠ ch.toNat → cs[d]? = s.channels[d]?) ∧
      ∃ c', cs[ch.toNat]? = some c' ∧ c'.pol = c.pol ∧
        c'.int.x1 = 0#16 ∧ c'.int.x2 = 0#16 ∧ c'.int.y1 = 0#32 ∧ c'.int.y2 = 0#32 ∧ c'.int.r = 0#30 ∧
        c'.flt.xf1 = 0#64 ∧ c'.flt.xf2 = 0#64 ∧ c'.flt.yf1 = 0#64 ∧ c'.flt.yf2 = 0#64

/-- R183: RDST puts the field in RES, sign-extended (x1, x2, y1, y2), zero-extended (r) or as its pattern, and changes nothing
else. -/
def Obligations.RdstReturnsTheField : Prop :=
  ∀ (s : State) (ch : ChIndex) (c : Channel), s.channels[ch.toNat]? = some c →
    ∀ f : Field, ∃ v : DWord, exec (.rdst ch f) s = .next { s with res := v } ∧
      (f = .x1 → v.toInt = c.int.x1.toInt) ∧ (f = .x2 → v.toInt = c.int.x2.toInt) ∧
      (f = .y1 → v.toInt = c.int.y1.toInt) ∧ (f = .y2 → v.toInt = c.int.y2.toInt) ∧
      (f = .r → v.toNat = c.int.r.toNat) ∧
      (f = .xf1 → v = c.flt.xf1) ∧ (f = .xf2 → v = c.flt.xf2) ∧
      (f = .yf1 → v = c.flt.yf1) ∧ (f = .yf2 → v = c.flt.yf2)

/-- R184: WRST writes one field of its slot from OPR, ignoring the bits above the field's width; every other field, the policy,
every other slot and everything else stays. -/
def Obligations.WrstWritesOneFieldFromOpr : Prop :=
  ∀ (s : State) (ch : ChIndex) (c : Channel), s.channels[ch.toNat]? = some c →
    ∀ f : Field, ∃ (cs : List Channel) (c' : Channel),
      exec (.wrst ch f) s = .next { s with channels := cs } ∧ cs.length = s.nch ∧
      (∀ d, d ≠ ch.toNat → cs[d]? = s.channels[d]?) ∧ cs[ch.toNat]? = some c' ∧ c'.pol = c.pol ∧
      c'.int.x1 = (if f = .x1 then s.opr.extractLsb' 0 16 else c.int.x1) ∧
      c'.int.x2 = (if f = .x2 then s.opr.extractLsb' 0 16 else c.int.x2) ∧
      c'.int.y1 = (if f = .y1 then s.opr.extractLsb' 0 32 else c.int.y1) ∧
      c'.int.y2 = (if f = .y2 then s.opr.extractLsb' 0 32 else c.int.y2) ∧
      c'.int.r = (if f = .r then s.opr.extractLsb' 0 30 else c.int.r) ∧
      c'.flt.xf1 = (if f = .xf1 then s.opr else c.flt.xf1) ∧
      c'.flt.xf2 = (if f = .xf2 then s.opr else c.flt.xf2) ∧
      c'.flt.yf1 = (if f = .yf1 then s.opr else c.flt.yf1) ∧
      c'.flt.yf2 = (if f = .yf2 then s.opr else c.flt.yf2)

/-! ### Fixed point -/

/-- R100: Q30sat, case by case. In range the result is real(f) * 2^30 rounded toward zero: of the same sign, and less than one unit
short in magnitude. Values are in units of 2^-1074. -/
def Obligations.Q30satConvertsByTruncation : Prop :=
  ∀ f : F64,
    (F64.isNaN f = true → q30sat f = { q := 0, inv := true, sat := false }) ∧
    (F64.isNaN f = false → 2 * 2 ^ 1074 ≤ F64.scaled f → q30sat f = { q := 0x7FFFFFFF, inv := false, sat := true }) ∧
    (F64.isNaN f = false → F64.scaled f < -2 * 2 ^ 1074 → q30sat f = { q := 0x80000000, inv := false, sat := true }) ∧
    (F64.isNaN f = false → -2 * 2 ^ 1074 ≤ F64.scaled f → F64.scaled f < 2 * 2 ^ 1074 →
      (q30sat f).inv = false ∧ (q30sat f).sat = false ∧
      (q30sat f).q.toInt.natAbs * 2 ^ 1074 ≤ F64.mag f * 2 ^ 30 ∧
      F64.mag f * 2 ^ 30 < ((q30sat f).q.toInt.natAbs + 1) * 2 ^ 1074 ∧
      0 ≤ (q30sat f).q.toInt * F64.scaled f)

/-- R101: the tolerance of a doubled coefficient: where g is exactly 2 * f, Q30sat(g) - 2 * Q30sat(f) is 0 or 1 for 0 <= f < 1 and
0 or -1 for -1 <= f < 0. -/
def Obligations.DoubledCoefficientTolerance : Prop :=
  ∀ f g : F64, F64.isFinite f = true → F64.isFinite g = true → F64.scaled g = 2 * F64.scaled f →
    (0 ≤ F64.scaled f → F64.scaled f < 2 ^ 1074 →
      (q30sat g).q.toInt - 2 * (q30sat f).q.toInt = 0 ∨ (q30sat g).q.toInt - 2 * (q30sat f).q.toInt = 1) ∧
    (-2 ^ 1074 ≤ F64.scaled f → F64.scaled f < 0 →
      (q30sat g).q.toInt - 2 * (q30sat f).q.toInt = 0 ∨ (q30sat g).q.toInt - 2 * (q30sat f).q.toInt = -1)

/-- R102: CVT puts the Q30 form of OPR, sign-extended, in RES, sets INV and SAT as the conversion reports, and changes nothing
else. -/
def Obligations.CvtConvertsOpr : Prop :=
  ∀ s : State, ∃ v : DWord,
    exec .cvt s = .next { s with
      res := v,
      status := { ill := s.status.ill,
                  inv := s.status.inv || (q30sat s.opr).inv,
                  sat := s.status.sat || (q30sat s.opr).sat } } ∧
    v.toInt = (q30sat s.opr).q.toInt

/-- R103, R26: LDQ writes Q[k] from OPR[31:0] (and with b0 the value b2 reads), and changes nothing else, D[k] included. -/
def Obligations.LdqLoadsTheQ30FormAlone : Prop :=
  ∀ (s : State) (k : Coef), k ≠ .b2 →
    ∃ q : QCoefs, exec (.ldq k) s = .next { s with q := q } ∧
      q.get k = s.opr.extractLsb' 0 32 ∧ q.get .b2 = q.get .b0 ∧
      ∀ j, j ≠ k → j ≠ .b2 → q.get j = s.q.get j

/-- R104, R26: LDD writes D[k] with the pattern in OPR and Q[k] with its Q30 form, sets INV and SAT as the conversion reports, and
changes nothing else. -/
def Obligations.LddLoadsBothForms : Prop :=
  ∀ (s : State) (k : Coef), k ≠ .b2 →
    ∃ (q : QCoefs) (d : DCoefs),
      exec (.ldd k) s = .next { s with
        q := q, d := d,
        status := { ill := s.status.ill,
                    inv := s.status.inv || (q30sat s.opr).inv,
                    sat := s.status.sat || (q30sat s.opr).sat } } ∧
      q.get k = (q30sat s.opr).q ∧ d.get k = s.opr ∧
      (∀ j, j ≠ k → j ≠ .b2 → q.get j = s.q.get j ∧ d.get j = s.d.get j)

/-- R105, R106, R26: RDQ puts Q[k], sign-extended, and RDD the pattern D[k] in RES, b2 reading b0, and change nothing else. -/
def Obligations.RdqAndRddReturnTheForms : Prop :=
  ∀ (s : State) (k : Coef),
    (∃ v : DWord, exec (.rdq k) s = .next { s with res := v } ∧
      v.toInt = (match k with | .b0 | .b2 => s.q.b0 | .b1 => s.q.b1 | .a1 => s.q.a1 | .a2 => s.q.a2).toInt) ∧
    exec (.rdd k) s = .next { s with
      res := match k with | .b0 | .b2 => s.d.b0 | .b1 => s.d.b1 | .a1 => s.d.a1 | .a2 => s.d.a2 }

/-! ### Parameters and the coefficient calculator -/

/-- R120, R121, R122, R123: SETFC, SETQ and SETFS write their register from OPR, every pattern accepted; RDP puts the pattern P.FC or
P.QF, or P.FS zero-extended, in RES; and each changes nothing else. -/
def Obligations.ParameterCommandsWriteAndReadTheirRegister : Prop :=
  ∀ s : State,
    exec .setfc s = .next { s with p := { fc := s.opr, qf := s.p.qf, fs := s.p.fs } } ∧
    exec .setq s = .next { s with p := { fc := s.p.fc, qf := s.opr, fs := s.p.fs } } ∧
    exec .setfs s = .next { s with p := { fc := s.p.fc, qf := s.p.qf, fs := s.opr.extractLsb' 0 32 } } ∧
    exec (.rdp .fc) s = .next { s with res := s.p.fc } ∧
    exec (.rdp .qf) s = .next { s with res := s.p.qf } ∧
    ∃ v : DWord, exec (.rdp .fs) s = .next { s with res := v } ∧ v.toNat = s.p.fs.toNat

/-- R126, R125: CCALC computes the listing, one rounded operation after another, with TAN64 of t2 as K; a NaN result of operation j
has some NaN pattern `nan j`. It writes both forms of b0, b1, a1 and a2, sets INV and SAT as the four conversions report, and changes
nothing else but the model's count of draws. -/
def Obligations.CcalcComputesTheListing : Prop :=
  ∀ s : State, ∃ nan : Nat → F64, (∀ j, F64.isNaN (nan j) = true) ∧
    ∃ t1 t2 K K2 kq den norm vb0 vb1 va1 va2 : F64,
      t1 = F64.mul (nan 0) 0x400921FB54442D18 s.p.fc ∧
      t2 = F64.div (nan 1) t1 (F64.ofInt s.p.fs.toNat) ∧
      K = F64.tan t2 ∧
      K2 = F64.mul (nan 2) K K ∧
      kq = F64.div (nan 3) K s.p.qf ∧
      den = F64.add (nan 5) (F64.add (nan 4) 0x3FF0000000000000 kq) K2 ∧
      norm = F64.div (nan 6) 0x3FF0000000000000 den ∧
      vb0 = F64.mul (nan 7) K2 norm ∧
      vb1 = F64.mul (nan 8) 0x4000000000000000 vb0 ∧
      va1 = F64.mul (nan 11) (F64.mul (nan 10) 0x4000000000000000 (F64.sub (nan 9) K2 0x3FF0000000000000)) norm ∧
      va2 = F64.mul (nan 14) (F64.add (nan 13) (F64.sub (nan 12) 0x3FF0000000000000 kq) K2) norm ∧
      ∃ n, exec .ccalc s = .next { s with
        d := { b0 := vb0, b1 := vb1, a1 := va1, a2 := va2 },
        q := { b0 := (q30sat vb0).q, b1 := (q30sat vb1).q, a1 := (q30sat va1).q, a2 := (q30sat va2).q },
        status := { ill := s.status.ill,
                    inv := s.status.inv || ((q30sat vb0).inv || (q30sat vb1).inv || (q30sat va1).inv || (q30sat va2).inv),
                    sat := s.status.sat || ((q30sat vb0).sat || (q30sat vb1).sat || (q30sat va1).sat || (q30sat va2).sat) },
        nanDraws := n }

/-- R128, R101: with whatever K TAN64 gives, whatever quality factor and whatever NaN patterns, the listing's b1 is exactly 2 * b0
where b0 is finite and below 2^1023 in magnitude, and then the Q30 forms satisfy Q[b1] - 2 * Q[b0] in {0, 1} for 0 <= b0 < 1. These
are the coefficients that CCALC stores, in both forms. -/
def Obligations.CcalcDoublesB0Exactly : Prop :=
  (∀ (nan : Nat → F64) (k q : F64) (d : DCoefs), d = ccalcFromK nan k q →
    F64.isFinite d.b0 = true → F64.mag d.b0 < 2 ^ 1023 * 2 ^ 1074 →
      F64.isFinite d.b1 = true ∧ F64.scaled d.b1 = 2 * F64.scaled d.b0 ∧
      (0 ≤ F64.scaled d.b0 → F64.scaled d.b0 < 2 ^ 1074 →
        (quantize d).b1.toInt - 2 * (quantize d).b0.toInt = 0 ∨ (quantize d).b1.toInt - 2 * (quantize d).b0.toInt = 1)) ∧
  (∀ s : State, ∃ k t, exec .ccalc s = .next t ∧ t.d = ccalcFromK s.drawNaN k s.p.qf ∧ t.q = quantize t.d)

/-- R127, R122: nothing is checked: with P.FS = 0, whatever P.FC and P.QF hold, CCALC completes with four NaNs, four zero Q30 forms
and INV, whatever TAN64 and the NaN patterns are. -/
def Obligations.CcalcWithZeroSampleRateIsInvalid : Prop :=
  ∀ s : State, s.p.fs = 0 →
    ∃ t, exec .ccalc s = .next t ∧ t.status.inv = true ∧ t.status.sat = s.status.sat ∧
      (∀ k, F64.isNaN (t.d.get k) = true) ∧ (∀ k, t.q.get k = 0)

/-! ### The integer filter -/

/-- R141, R142, R143, R145, R146, R147: STEPI under CarryRemainder. acc is the wrapped sum; acc = v * 2^30 + r' with 0 <= r' < 2^30;
y1 is v wrapped to 32 bits, RES the sign-extended wrap to 16 bits; the histories shift; nothing else changes. -/
def Obligations.StepiCarriesTheRemainder : Prop :=
  ∀ (s : State) (ch : ChIndex) (c : Channel) (imm : Sample),
    s.channels[ch.toNat]? = some c → c.pol = .carryRemainder →
    ∃ (acc : BitVec 64) (v : Int) (r' : Remainder) (res : DWord),
      acc = BitVec.ofInt 64 (c.int.r.toNat + s.q.b0.toInt * imm.toInt + s.q.b1.toInt * c.int.x1.toInt
        + s.q.b0.toInt * c.int.x2.toInt - s.q.a1.toInt * c.int.y1.toInt - s.q.a2.toInt * c.int.y2.toInt) ∧
      acc.toInt = v * 2 ^ 30 + r'.toNat ∧
      res.toInt = (BitVec.ofInt 16 v).toInt ∧
      exec (.stepi ch imm) s = .next { s with
        res := res,
        channels := s.channels.set ch.toNat { c with
          int := { x1 := imm, x2 := c.int.x1, y1 := BitVec.ofInt 32 v, y2 := c.int.y1, r := r' } } }

/-- R141, R144, R145, R146, R147: STEPI under RoundAndReset. v is acc / 2^30 rounded to nearest, ties up, with acc + 2^29 wrapped to
64 bits; the remainder becomes 0; the rest as under CarryRemainder. -/
def Obligations.StepiRoundsAndResets : Prop :=
  ∀ (s : State) (ch : ChIndex) (c : Channel) (imm : Sample),
    s.channels[ch.toNat]? = some c → c.pol = .roundAndReset →
    ∃ (acc : BitVec 64) (v : Int) (res : DWord),
      acc = BitVec.ofInt 64 (c.int.r.toNat + s.q.b0.toInt * imm.toInt + s.q.b1.toInt * c.int.x1.toInt
        + s.q.b0.toInt * c.int.x2.toInt - s.q.a1.toInt * c.int.y1.toInt - s.q.a2.toInt * c.int.y2.toInt) ∧
      v * 2 ^ 30 ≤ (BitVec.ofInt 64 (acc.toInt + 2 ^ 29)).toInt ∧
      (BitVec.ofInt 64 (acc.toInt + 2 ^ 29)).toInt < (v + 1) * 2 ^ 30 ∧
      res.toInt = (BitVec.ofInt 16 v).toInt ∧
      exec (.stepi ch imm) s = .next { s with
        res := res,
        channels := s.channels.set ch.toNat { c with
          int := { x1 := imm, x2 := c.int.x1, y1 := BitVec.ofInt 32 v, y2 := c.int.y1, r := 0 } } }

/-- R142: the sum factored into four products gives the same accumulator, and every product fits in 64 signed bits. -/
def Obligations.AccumulatorFactorsIntoFourProducts : Prop :=
  ∀ (q : QCoefs) (t : IntTrack) (x : Sample),
    IntTrack.acc q t x.toInt
      = BitVec.ofNat 64 t.r.toNat + BitVec.ofInt 64 (q.b0.toInt * (x.toInt + t.x2.toInt))
        + BitVec.ofInt 64 (q.b1.toInt * t.x1.toInt) - BitVec.ofInt 64 (q.a1.toInt * t.y1.toInt)
        - BitVec.ofInt 64 (q.a2.toInt * t.y2.toInt) ∧
    (q.b0.toInt * x.toInt).natAbs ≤ 2 ^ 46 ∧ (q.b1.toInt * t.x1.toInt).natAbs ≤ 2 ^ 46 ∧
    (q.b0.toInt * t.x2.toInt).natAbs ≤ 2 ^ 46 ∧
    (q.a1.toInt * t.y1.toInt).natAbs ≤ 2 ^ 62 ∧ (q.a2.toInt * t.y2.toInt).natAbs ≤ 2 ^ 62

/-- R149: under CarryRemainder, zero input on zero histories leaves the whole slot unchanged, the remainder included, and puts 0 in
RES, whatever the coefficients. -/
def Obligations.SilenceIsAFixedPoint : Prop :=
  ∀ (s : State) (ch : ChIndex) (c : Channel),
    s.channels[ch.toNat]? = some c → c.pol = .carryRemainder →
    c.int.x1 = 0 → c.int.x2 = 0 → c.int.y1 = 0 → c.int.y2 = 0 →
      exec (.stepi ch 0) s = .next { s with res := 0 }

/-- R149: the dead band under RoundAndReset: with the feedback coefficients of Fc = 200 (V-CC2), every constant output y from -743 to
743 is a fixed point on zero input. -/
def Obligations.RoundingDeadBandAt200Hz : Prop :=
  ∀ (s : State) (ch : ChIndex) (c : Channel) (y : Int),
    s.channels[ch.toNat]? = some c → c.pol = .roundAndReset →
    s.q.a1 = 0x825E9F5C → s.q.a2 = 0x3DAC66F5 → -743 ≤ y → y ≤ 743 →
    c.int = { x1 := 0, x2 := 0, y1 := BitVec.ofInt 32 y, y2 := BitVec.ofInt 32 y, r := 0 } →
      exec (.stepi ch 0) s = .next { s with res := BitVec.ofInt 64 y }

/-- R148: channel independence of the STEPI outputs over whole sequences: two sequences of channel commands with the
same commands on channel ch, and anything whatever on the other channels, run to the end and give the same STEPI outputs on channel ch. -/
def Obligations.OutputsIgnoreOtherChannels : Prop :=
  ∀ (ch : ChIndex) (s : State) (p p' : List Instr),
    ch.toNat < s.nch →
    (∀ i ∈ p, i.channel? ≠ none ∧ i.wf s.nch = true) → (∀ i ∈ p', i.channel? ≠ none ∧ i.wf s.nch = true) →
    p.filter (fun i => decide (i.channel? = some ch)) = p'.filter (fun i => decide (i.channel? = some ch)) →
    ∃ out, stepiOutputs ch p s = some out ∧ stepiOutputs ch p' s = some out

/-! ### Binary64 arithmetic and the floating filter -/

/-- R10: fadd and fsub round the exact sum and difference of finite operands to nearest, ties to even, and overflow to an infinity of
the exact result's sign; an exact zero is -0.0 only where both terms are negative (the signs of zero are IEEE 754's, log 11). -/
def Obligations.AddAndSubRoundToNearestEven : Prop :=
  ∀ nan a b : F64, F64.isFinite a = true → F64.isFinite b = true →
    ((F64.scaled a + F64.scaled b).natAbs < F64.overflowBound →
      F64.IsNearestEven (F64.scaled a + F64.scaled b) 1 (F64.add nan a b)) ∧
    (F64.overflowBound ≤ (F64.scaled a + F64.scaled b).natAbs →
      F64.add nan a b = F64.inf (decide (F64.scaled a + F64.scaled b < 0))) ∧
    (F64.scaled a + F64.scaled b = 0 → F64.add nan a b = F64.zero (F64.neg a && F64.neg b)) ∧
    ((F64.scaled a - F64.scaled b).natAbs < F64.overflowBound →
      F64.IsNearestEven (F64.scaled a - F64.scaled b) 1 (F64.sub nan a b)) ∧
    (F64.overflowBound ≤ (F64.scaled a - F64.scaled b).natAbs →
      F64.sub nan a b = F64.inf (decide (F64.scaled a - F64.scaled b < 0))) ∧
    (F64.scaled a - F64.scaled b = 0 → F64.sub nan a b = F64.zero (F64.neg a && !F64.neg b))

/-- R10: fmul rounds the exact product of finite operands to nearest, ties to even, and overflows to an infinity; its sign is the
exclusive or of the operands', that of a zero or an infinity too, which is IEEE 754's rule (log 11). The product of `scaled` values is
in units of 2^-2148. -/
def Obligations.MulRoundsToNearestEven : Prop :=
  ∀ nan a b : F64, F64.isFinite a = true → F64.isFinite b = true →
    ((F64.scaled a * F64.scaled b).natAbs < F64.overflowBound * 2 ^ 1074 →
      F64.IsNearestEven (F64.scaled a * F64.scaled b) (2 ^ 1074) (F64.mul nan a b)) ∧
    (F64.overflowBound * 2 ^ 1074 ≤ (F64.scaled a * F64.scaled b).natAbs → F64.isInf (F64.mul nan a b) = true) ∧
    F64.neg (F64.mul nan a b) = (F64.neg a != F64.neg b)

/-- R10: fdiv rounds the exact quotient of finite operands, the divisor nonzero, to nearest, ties to even, and overflows to an
infinity; its sign is the exclusive or of the operands', that of a zero or an infinity too, which is IEEE 754's rule (log 11). -/
def Obligations.DivRoundsToNearestEven : Prop :=
  ∀ nan a b : F64, F64.isFinite a = true → F64.isFinite b = true → F64.scaled b ≠ 0 →
    ((F64.scaled a * 2 ^ 1074).natAbs < F64.overflowBound * F64.mag b →
      F64.IsNearestEven (F64.scaled a * 2 ^ 1074 * (F64.scaled b).sign) (F64.mag b) (F64.div nan a b)) ∧
    (F64.overflowBound * F64.mag b ≤ (F64.scaled a * 2 ^ 1074).natAbs → F64.isInf (F64.div nan a b) = true) ∧
    F64.neg (F64.div nan a b) = (F64.neg a != F64.neg b)

/-- R10 and log 11: the special operands. A NaN operand and the invalid operations give the NaN drawn; infinities and divisions by
zero give IEEE 754's signed infinities and zeros. -/
def Obligations.SpecialOperandsFollowIeee754 : Prop :=
  ∀ nan a b : F64,
    ((F64.isNaN a = true ∨ F64.isNaN b = true) →
      F64.add nan a b = nan ∧ F64.sub nan a b = nan ∧ F64.mul nan a b = nan ∧ F64.div nan a b = nan) ∧
    (F64.isInf a = true → F64.isFinite b = true →
      F64.add nan a b = a ∧ F64.sub nan a b = a ∧
      F64.mul nan a b = (if F64.scaled b = 0 then nan else F64.inf (F64.neg a != F64.neg b)) ∧
      F64.div nan a b = F64.inf (F64.neg a != F64.neg b)) ∧
    (F64.isFinite a = true → F64.isInf b = true →
      F64.add nan a b = b ∧ F64.sub nan a b = F64.inf (!F64.neg b) ∧
      F64.mul nan a b = (if F64.scaled a = 0 then nan else F64.inf (F64.neg a != F64.neg b)) ∧
      F64.div nan a b = F64.zero (F64.neg a != F64.neg b)) ∧
    (F64.isInf a = true → F64.isInf b = true →
      F64.add nan a b = (if F64.neg a = F64.neg b then a else nan) ∧
      F64.sub nan a b = (if F64.neg a = F64.neg b then nan else a) ∧
      F64.mul nan a b = F64.inf (F64.neg a != F64.neg b) ∧ F64.div nan a b = nan) ∧
    (F64.isFinite a = true → F64.isFinite b = true → F64.scaled b = 0 →
      F64.div nan a b = (if F64.scaled a = 0 then nan else F64.inf (F64.neg a != F64.neg b)))

/-- R10, R83: i2f of an integer of at most 2^53 in magnitude, every sample and every P.FS among them, is exact. -/
def Obligations.IntegersConvertExactly : Prop :=
  ∀ n : Int, n.natAbs ≤ 2 ^ 53 → F64.isFinite (F64.ofInt n) = true ∧ F64.scaled (F64.ofInt n) = n * 2 ^ 1074

/-- R160: Cvt16, case by case. A NaN and an infinity are invalid; a finite value is truncated toward zero to t, which is invalid
outside int32 and is wrapped to 16 bits inside it. -/
def Obligations.Cvt16TruncatesAndWraps : Prop :=
  ∀ v : F64,
    (F64.isNaN v = true ∨ F64.isInf v = true → cvt16 v = (0, true)) ∧
    (F64.isFinite v = true → ∃ t : Int,
      t.natAbs * 2 ^ 1074 ≤ F64.mag v ∧ F64.mag v < (t.natAbs + 1) * 2 ^ 1074 ∧ 0 ≤ t * F64.scaled v ∧
      ((t < -2 ^ 31 ∨ 2 ^ 31 - 1 < t) → cvt16 v = (0, true)) ∧
      (-2 ^ 31 ≤ t → t ≤ 2 ^ 31 - 1 → cvt16 v = (BitVec.ofInt 16 t, false)))

/-- R161, R162: STEPF computes (((p0 + p1) + p2) - p3) - p4, one rounded operation after another, keeps the unconverted accumulator
in yf1, shifts the histories, puts the sign-extended Cvt16 of it in RES, sets INV where that is invalid, and changes nothing else but
the model's count of draws. A NaN result of operation j has some NaN pattern `nan j`. -/
def Obligations.StepfComputesTheListing : Prop :=
  ∀ (s : State) (ch : ChIndex) (c : Channel) (imm : Sample), s.channels[ch.toNat]? = some c →
    ∃ nan : Nat → F64, (∀ j, F64.isNaN (nan j) = true) ∧
    ∃ xf p0 p1 p2 p3 p4 acc : F64,
      xf = F64.ofInt imm.toInt ∧
      p0 = F64.mul (nan 0) s.d.b0 xf ∧
      p1 = F64.mul (nan 1) s.d.b1 c.flt.xf1 ∧
      p2 = F64.mul (nan 2) s.d.b0 c.flt.xf2 ∧
      p3 = F64.mul (nan 3) s.d.a1 c.flt.yf1 ∧
      p4 = F64.mul (nan 4) s.d.a2 c.flt.yf2 ∧
      acc = F64.sub (nan 8) (F64.sub (nan 7) (F64.add (nan 6) (F64.add (nan 5) p0 p1) p2) p3) p4 ∧
      ∃ (res : DWord) (n : Nat), res.toInt = (cvt16 acc).1.toInt ∧
        exec (.stepf ch imm) s = .next { s with
          res := res,
          status := { ill := s.status.ill, inv := s.status.inv || (cvt16 acc).2, sat := s.status.sat },
          channels := s.channels.set ch.toNat { c with
            flt := { xf1 := xf, xf2 := c.flt.xf1, yf1 := acc, yf2 := c.flt.yf1 } },
          nanDraws := n }

/-- R161: a NaN or an infinity in the history propagates: where one of the four history fields is not finite, STEPF leaves yf1 not
finite, puts 0 in RES and sets INV, whatever the coefficients and the NaN patterns are. -/
def Obligations.NonFiniteHistoryPropagates : Prop :=
  ∀ (s : State) (ch : ChIndex) (c : Channel) (imm : Sample), s.channels[ch.toNat]? = some c →
    (F64.isFinite c.flt.xf1 = false ∨ F64.isFinite c.flt.xf2 = false ∨ F64.isFinite c.flt.yf1 = false ∨
      F64.isFinite c.flt.yf2 = false) →
    ∃ t c', exec (.stepf ch imm) s = .next t ∧ t.channels[ch.toNat]? = some c' ∧
      F64.isFinite c'.flt.yf1 = false ∧ t.res = 0 ∧ t.status.inv = true

/-- R165: STEPD advances both tracks exactly as a STEPF followed by a STEPI on the same sample (in either order), and RES holds the
wrapped difference of the samples the two would emit, sign-extended. -/
def Obligations.StepdIsStepfAndStepi : Prop :=
  ∀ (s : State) (ch : ChIndex) (imm : Sample), ch.toNat < s.nch →
    ∃ f i i' f' v, exec (.stepf ch imm) s = .next f ∧ exec (.stepi ch imm) f = .next i ∧
      exec (.stepi ch imm) s = .next i' ∧ exec (.stepf ch imm) i' = .next f' ∧
      i.channels = f'.channels ∧
      exec (.stepd ch imm) s = .next { i with res := v } ∧
      v.toInt = (BitVec.ofInt 16 (f.res.toInt - i.res.toInt)).toInt
end

