-- ==== Sys2Proof/Laws/Binary64.lean ====
section
/-! SUPPORT. The binary64 patterns and their rounding: a pattern taken apart, and `round` is the nearest value, ties to even. -/

namespace Sys2Proof.Machine

/-! ### A pattern from its sign and its lower 63 bits -/

theorem F64.neg_ofSignMag (b : Bool) (low : Nat) : F64.neg (F64.ofSignMag b low) = b := by
  change (BitVec.ofBool b ++ BitVec.ofNat 63 low : BitVec (1 + 63)).msb = b
  rw [BitVec.msb_append]; cases b <;> rfl

theorem F64.toNat_ofSignMag (b : Bool) {low : Nat} (h : low < 2 ^ 63) :
    (F64.ofSignMag b low).toNat = b.toNat * 2 ^ 63 + low := by
  unfold F64.ofSignMag
  rw [BitVec.toNat_append, BitVec.toNat_ofNat, Nat.mod_eq_of_lt h, ← Nat.shiftLeft_add_eq_or_of_lt h,
    Nat.shiftLeft_eq, BitVec.toNat_ofBool]

theorem F64.expField_eq (p : F64) : F64.expField p = p.toNat / 2 ^ 52 % 2 ^ 11 := by
  simp [F64.expField, BitVec.extractLsb'_toNat, Nat.shiftRight_eq_div_pow]

theorem F64.fracField_eq (p : F64) : F64.fracField p = p.toNat % 2 ^ 52 := by
  simp [F64.fracField, BitVec.extractLsb'_toNat]

theorem F64.expField_lt (p : F64) : F64.expField p < 2048 := by
  rw [F64.expField_eq]; omega

theorem F64.fracField_lt (p : F64) : F64.fracField p < 2 ^ 52 := by
  rw [F64.fracField_eq]; omega

theorem F64.expField_ofSignMag (b : Bool) {low : Nat} (h : low < 2 ^ 63) :
    F64.expField (F64.ofSignMag b low) = low / 2 ^ 52 := by
  rw [F64.expField_eq, F64.toNat_ofSignMag b h]; cases b <;> simp <;> omega

theorem F64.fracField_ofSignMag (b : Bool) {low : Nat} (h : low < 2 ^ 63) :
    F64.fracField (F64.ofSignMag b low) = low % 2 ^ 52 := by
  rw [F64.fracField_eq, F64.toNat_ofSignMag b h]; cases b <;> simp <;> omega

/-- Two patterns with the same sign, exponent and fraction are the same. -/
theorem F64.eq_of_fields {p q : F64} (hs : F64.neg p = F64.neg q) (he : F64.expField p = F64.expField q)
    (hf : F64.fracField p = F64.fracField q) : p = q := by
  apply BitVec.eq_of_toNat_eq
  rw [F64.expField_eq, F64.expField_eq] at he
  rw [F64.fracField_eq, F64.fracField_eq] at hf
  have hp := p.isLt
  have hq := q.isLt
  simp only [F64.neg, BitVec.msb_eq_decide, decide_eq_decide] at hs
  omega

/-- `negate` inverts the sign and keeps the magnitude. -/
theorem F64.neg_negate (p : F64) : F64.neg (F64.negate p) = !F64.neg p := F64.neg_ofSignMag _ _

theorem F64.expField_negate (p : F64) : F64.expField (F64.negate p) = F64.expField p := by
  rw [F64.negate, F64.expField_ofSignMag _ (Nat.mod_lt _ (by decide)), F64.expField_eq]; omega

theorem F64.fracField_negate (p : F64) : F64.fracField (F64.negate p) = F64.fracField p := by
  rw [F64.negate, F64.fracField_ofSignMag _ (Nat.mod_lt _ (by decide)), F64.fracField_eq]; omega

theorem F64.mag_negate (p : F64) : F64.mag (F64.negate p) = F64.mag p := by
  simp [F64.mag, F64.expField_negate, F64.fracField_negate]

theorem F64.scaled_negate (p : F64) : F64.scaled (F64.negate p) = -F64.scaled p := by
  simp only [F64.scaled, F64.neg_negate, F64.mag_negate]
  cases F64.neg p <;> simp

/-! ### NaN patterns (R6) -/

/-- Whatever bits are drawn, the pattern is a NaN's. -/
theorem F64.isNaN_nanPattern (bits : DWord) : F64.isNaN (F64.nanPattern bits) = true := by
  have hf := F64.fracField_lt bits
  have h : (2047 * 2 ^ 52 + (if F64.fracField bits = 0 then 1 else F64.fracField bits)) < 2 ^ 63 := by
    split <;> omega
  unfold F64.nanPattern
  simp only [F64.isNaN, F64.expField_ofSignMag _ h, F64.fracField_ofSignMag _ h]
  split <;> simp <;> omega

/-- Every NaN pattern can be drawn. -/
theorem F64.nanPattern_of_isNaN {p : F64} (h : F64.isNaN p = true) : F64.nanPattern p = p := by
  simp only [F64.isNaN, Bool.and_eq_true, beq_iff_eq, bne_iff_ne] at h
  have hf := F64.fracField_lt p
  have hlt : 2047 * 2 ^ 52 + F64.fracField p < 2 ^ 63 := by omega
  unfold F64.nanPattern
  rw [if_neg h.2]
  apply F64.eq_of_fields
  · rw [F64.neg_ofSignMag]; rfl
  · rw [F64.expField_ofSignMag _ hlt]; omega
  · rw [F64.fracField_ofSignMag _ hlt]; omega

/-- A draw is a NaN. -/
@[simp] theorem State.isNaN_drawNaN (s : State) (j : Nat) : F64.isNaN (s.drawNaN j) = true :=
  F64.isNaN_nanPattern _

/-- A finite pattern is neither a NaN nor an infinity. -/
theorem F64.isFinite_iff (p : F64) : F64.isFinite p = true ↔ F64.isNaN p = false ∧ F64.isInf p = false := by
  simp only [F64.isFinite, F64.isNaN, F64.isInf]
  by_cases h : F64.expField p = 2047 <;> simp [h]

/-! ### Magnitudes -/

/-- The magnitude of the pattern whose lower 63 bits are e * 2^52 + m, with m a significand of e's binade (or one that rounded
up to 2^53, or a subnormal one). -/
theorem F64.mag_ofSignMag (b : Bool) {e m : Nat} (hm : m ≤ 2 ^ 53) (hn : e = 0 ∨ 2 ^ 52 ≤ m)
    (hlt : e * 2 ^ 52 + m < 2047 * 2 ^ 52) : F64.mag (F64.ofSignMag b (e * 2 ^ 52 + m)) = m * 2 ^ e := by
  have h63 : e * 2 ^ 52 + m < 2 ^ 63 := by omega
  unfold F64.mag
  rw [F64.expField_ofSignMag b h63, F64.fracField_ofSignMag b h63]
  rcases Nat.lt_or_ge m (2 ^ 52) with h | h
  · have he : e = 0 := by omega
    subst he
    have h1 : (0 * 2 ^ 52 + m) / 2 ^ 52 = 0 := by omega
    have h2 : (0 * 2 ^ 52 + m) % 2 ^ 52 = m := by omega
    rw [h1, h2, if_pos rfl, Nat.pow_zero, Nat.mul_one]
  · rcases Nat.lt_or_ge m (2 ^ 53) with h' | h'
    · have h1 : (e * 2 ^ 52 + m) / 2 ^ 52 = e + 1 := by omega
      have h2 : (e * 2 ^ 52 + m) % 2 ^ 52 = m - 2 ^ 52 := by omega
      rw [h1, h2, if_neg (by omega)]
      have : 2 ^ 52 + (m - 2 ^ 52) = m := by omega
      rw [this, Nat.add_sub_cancel]
    · have hm' : m = 2 ^ 53 := by omega
      subst hm'
      have h1 : (e * 2 ^ 52 + 2 ^ 53) / 2 ^ 52 = e + 2 := by omega
      have h2 : (e * 2 ^ 52 + 2 ^ 53) % 2 ^ 52 = 0 := by omega
      rw [h1, h2, if_neg (by omega)]
      have : e + 2 - 1 = e + 1 := by omega
      rw [this, Nat.pow_succ 2 e]
      ring

/-- Every finite magnitude is m * 2^e with m below 2^53 and e below 2046. -/
theorem F64.mag_form (z : F64) (hz : F64.isFinite z = true) : ∃ m e, F64.mag z = m * 2 ^ e ∧ m < 2 ^ 53 ∧ e < 2046 := by
  have hf := F64.fracField_lt z
  have he := F64.expField_lt z
  have hx : F64.expField z ≠ 2047 := by simpa [F64.isFinite] using hz
  unfold F64.mag
  split
  · exact ⟨F64.fracField z, 0, by simp, by omega, by omega⟩
  · exact ⟨2 ^ 52 + F64.fracField z, F64.expField z - 1, rfl, by omega, by omega⟩

/-! ### Rounding a quotient to an integer -/

/-- `divRoundEven` is the nearest integer, the even one of two. -/
theorem F64.divRoundEven_nearest (num den k : Nat) (hd : 0 < den) :
    ((num : Int) - (F64.divRoundEven num den : Int) * den).natAbs ≤ ((num : Int) - (k : Int) * den).natAbs ∧
    (((num : Int) - (F64.divRoundEven num den : Int) * den).natAbs = ((num : Int) - (k : Int) * den).natAbs →
      k ≠ F64.divRoundEven num den → F64.divRoundEven num den % 2 = 0) := by
  have hdiv : num = num / den * den + num % den := by rw [Nat.mul_comm]; exact (Nat.div_add_mod num den).symm
  have hmod := Nat.mod_lt num hd
  generalize hq : num / den = q at *
  generalize hr : num % den = rem at *
  have hval : F64.divRoundEven num den = if 2 * rem < den then q else if den < 2 * rem then q + 1 else q + q % 2 := by
    simp only [F64.divRoundEven, hq, hr]
  have hnum : (num : Int) = q * den + rem := by rw [hdiv]; push_cast; ring
  -- the distance to a multiple k: k ≤ q gives (q - k) * den + rem, k > q gives (k - q) * den - rem
  have hk : k ≤ q ∨ q + 1 ≤ k := by omega
  have dist_low : ∀ j : Nat, j ≤ q → ((num : Int) - (j : Int) * den).natAbs = (q - j) * den + rem := by
    intro j hj
    have : (num : Int) - (j : Int) * den = (((q - j) * den + rem : Nat) : Int) := by
      rw [hnum]; push_cast [Nat.cast_sub hj]; ring
    rw [this]; exact Int.natAbs_natCast _
  have dist_high : ∀ j : Nat, q + 1 ≤ j → ((num : Int) - (j : Int) * den).natAbs = (j - (q + 1)) * den + (den - rem) := by
    intro j hj
    have : (num : Int) - (j : Int) * den = -(((j - (q + 1)) * den + (den - rem) : Nat) : Int) := by
      rw [hnum]; push_cast [Nat.cast_sub hj, Nat.cast_sub hmod.le]; ring
    rw [this, Int.natAbs_neg]; exact Int.natAbs_natCast _
  have hlow := dist_low q (le_refl q)
  have hhigh := dist_high (q + 1) (le_refl _)
  rw [hval]
  rcases hk with h | h
  · have hkd := dist_low k h
    have hge : q ≠ k → den ≤ (q - k) * den := fun hne => Nat.le_mul_of_pos_left _ (by omega)
    have heq : q = k → (q - k) * den = 0 := fun he => by simp [he]
    split_ifs with h1 h2
    · rw [hlow, hkd]
      refine ⟨by simp, fun he hne => ?_⟩
      have := hge (Ne.symm hne); simp at he; omega
    · rw [hhigh, hkd]
      refine ⟨by simp; omega, fun he hne => ?_⟩
      by_cases hqk : q = k
      · rw [heq hqk] at he; simp at he; omega
      · have := hge hqk; simp at he; omega
    · by_cases hp : q % 2 = 0
      · rw [hp, Nat.add_zero, hlow, hkd]
        exact ⟨by simp, fun _ _ => hp⟩
      · have hp1 : q % 2 = 1 := by omega
        rw [hp1, hhigh, hkd]
        exact ⟨by simp; omega, fun _ _ => by omega⟩
  · have hkd := dist_high k h
    have hge : q + 1 ≠ k → den ≤ (k - (q + 1)) * den := fun hne => Nat.le_mul_of_pos_left _ (by omega)
    have heq : q + 1 = k → (k - (q + 1)) * den = 0 := fun he => by simp [he]
    split_ifs with h1 h2
    · rw [hlow, hkd]
      refine ⟨by simp; omega, fun he hne => ?_⟩
      by_cases hqk : q + 1 = k
      · rw [heq hqk] at he; simp at he; omega
      · have := hge hqk; simp at he; omega
    · rw [hhigh, hkd]
      refine ⟨by simp, fun he hne => ?_⟩
      have := hge (fun hh => hne hh.symm); simp at he; omega
    · by_cases hp : q % 2 = 0
      · rw [hp, Nat.add_zero, hlow, hkd]
        exact ⟨by simp; omega, fun _ _ => hp⟩
      · have hp1 : q % 2 = 1 := by omega
        rw [hp1, hhigh, hkd]
        exact ⟨by simp, fun _ _ => by omega⟩

/-! ### The binade of a magnitude -/

/-- The unit chosen by `roundExp` puts the significand in [2^52, 2^53), or the magnitude is below 2^53. -/
theorem F64.roundExp_spec (v : Nat) :
    (F64.roundExp v = 0 ∧ v < 2 ^ 53) ∨
    (1 ≤ F64.roundExp v ∧ 2 ^ 52 * 2 ^ F64.roundExp v ≤ v ∧ v < 2 ^ 53 * 2 ^ F64.roundExp v) := by
  unfold F64.roundExp
  split
  · exact .inl ⟨rfl, by assumption⟩
  · rename_i h
    have h0 : v ≠ 0 := by omega
    have hl : 53 ≤ Nat.log2 v := (Nat.le_log2 h0).mpr (by omega)
    have hlow : 2 ^ Nat.log2 v ≤ v := Nat.log2_self_le h0
    have hhigh : v < 2 ^ (Nat.log2 v + 1) := Nat.lt_log2_self
    refine .inr ⟨by omega, ?_, ?_⟩
    · rw [← Nat.pow_add, show 52 + (Nat.log2 v - 52) = Nat.log2 v by omega]; exact hlow
    · rw [← Nat.pow_add, show 53 + (Nat.log2 v - 52) = Nat.log2 v + 1 by omega]; exact hhigh

/-- `divRoundEven` is the whole part or one more. -/
theorem F64.divRoundEven_bounds (num den : Nat) :
    num / den ≤ F64.divRoundEven num den ∧ F64.divRoundEven num den ≤ num / den + 1 := by
  simp only [F64.divRoundEven]
  split_ifs <;> omega

/-- The significand that `round` keeps, in its unit: at most 2^53, and at least 2^52 unless the unit is the least one. -/
theorem F64.significand_bounds (num den : Nat) :
    F64.divRoundEven num (den * 2 ^ F64.roundExp (num / den)) ≤ 2 ^ 53 ∧
    (F64.roundExp (num / den) = 0 ∨ 2 ^ 52 ≤ F64.divRoundEven num (den * 2 ^ F64.roundExp (num / den))) := by
  have hb := F64.divRoundEven_bounds num (den * 2 ^ F64.roundExp (num / den))
  rw [← Nat.div_div_eq_div_mul] at hb
  rcases F64.roundExp_spec (num / den) with ⟨h0, h⟩ | ⟨_, hlow, hhigh⟩
  · rw [h0] at hb ⊢
    simp only [Nat.pow_zero, Nat.div_one, Nat.mul_one] at hb ⊢
    exact ⟨by omega, .inl trivial⟩
  · have h1 := (Nat.le_div_iff_mul_le (Nat.two_pow_pos (F64.roundExp (num / den)))).mpr hlow
    have h2 := (Nat.div_lt_iff_lt_mul (Nat.two_pow_pos (F64.roundExp (num / den)))).mpr hhigh
    exact ⟨by omega, .inr (by omega)⟩

/-- The nearest multiple of the unit is at least as near as any finite magnitude, and a finite magnitude equally near is itself
a multiple of the unit. -/
theorem F64.unit_nearest {num den z : Nat} (hd : 0 < den) (hz : ∃ m e, z = m * 2 ^ e ∧ m < 2 ^ 53) :
    let e := F64.roundExp (num / den)
    let m := F64.divRoundEven num (den * 2 ^ e)
    ((num : Int) - (m * 2 ^ e : Nat) * den).natAbs ≤ ((num : Int) - (z : Int) * den).natAbs ∧
    (((num : Int) - (m * 2 ^ e : Nat) * den).natAbs = ((num : Int) - (z : Int) * den).natAbs →
      z ≠ m * 2 ^ e → m % 2 = 0) := by
  intro e m
  have hD : 0 < den * 2 ^ e := Nat.mul_pos hd (Nat.two_pow_pos _)
  have near := fun k => F64.divRoundEven_nearest num (den * 2 ^ e) k hD
  have cast : ∀ k : Nat, ((k : Int)) * ((den * 2 ^ e : Nat) : Int) = ((k * 2 ^ e : Nat) : Int) * den := by
    intro k; push_cast; ring
  simp only [cast] at near
  obtain ⟨m', e', rfl, hm'⟩ := hz
  rcases Nat.lt_or_ge e' e with hlt | hge
  · -- the other value lies below 2^52 units, and the magnitude does not
    rcases F64.roundExp_spec (num / den) with ⟨h0, _⟩ | ⟨_, hlow, _⟩
    · omega
    · have hlow' : 2 ^ 52 * 2 ^ e * den ≤ num := by
        have := Nat.mul_le_mul_right den hlow
        exact le_trans this (Nat.div_mul_le_self num den)
      have hz' : m' * 2 ^ e' < 2 ^ 52 * 2 ^ e := by
        have h1 : m' * 2 ^ e' < 2 ^ 53 * 2 ^ e' := Nat.mul_lt_mul_of_pos_right hm' (Nat.two_pow_pos _)
        have h2 : 2 ^ 53 * 2 ^ e' ≤ 2 ^ 52 * 2 ^ e := by
          rw [← Nat.pow_add, ← Nat.pow_add]; exact Nat.pow_le_pow_right (by decide) (by omega)
        omega
      have hz'' : m' * 2 ^ e' * den < 2 ^ 52 * 2 ^ e * den := Nat.mul_lt_mul_of_pos_right hz' hd
      have h52 : ((num : Int) - ((m * 2 ^ e : Nat) : Int) * den).natAbs
          ≤ ((num : Int) - ((2 ^ 52 * 2 ^ e : Nat) : Int) * den).natAbs := (near (2 ^ 52)).1
      have step : ((num : Int) - ((2 ^ 52 * 2 ^ e : Nat) : Int) * den).natAbs
          < ((num : Int) - ((m' * 2 ^ e' : Nat) : Int) * den).natAbs := by
        have a1 : ((2 ^ 52 * 2 ^ e : Nat) : Int) * den = ((2 ^ 52 * 2 ^ e * den : Nat) : Int) := by push_cast; ring
        have a2 : ((m' * 2 ^ e' : Nat) : Int) * den = ((m' * 2 ^ e' * den : Nat) : Int) := by push_cast; ring
        rw [a1, a2]; omega
      exact ⟨by omega, fun he => by omega⟩
  · have hk : m' * 2 ^ e' = m' * 2 ^ (e' - e) * 2 ^ e := by
      rw [Nat.mul_assoc, ← Nat.pow_add, Nat.sub_add_cancel hge]
    have hn := near (m' * 2 ^ (e' - e))
    rw [hk]
    refine ⟨hn.1, fun he hne => hn.2 he fun hc => hne ?_⟩
    rw [hc]

/-- Below the overflow bound the lower 63 bits stay below an infinity's; from it on they reach it. -/
theorem F64.low_lt_iff {num den : Nat} (hd : 0 < den) :
    F64.roundExp (num / den) * 2 ^ 52 + F64.divRoundEven num (den * 2 ^ F64.roundExp (num / den)) < 2047 * 2 ^ 52 ↔
      num < F64.overflowBound * den := by
  have hs := F64.significand_bounds num den
  have hspec := F64.roundExp_spec (num / den)
  generalize F64.roundExp (num / den) = e at *
  have hA : ∀ c : Nat, num < c * den ↔ num / den < c := fun c => (Nat.div_lt_iff_lt_mul hd).symm
  have pow_le : ∀ {a b : Nat}, a ≤ b → 2 ^ a ≤ 2 ^ b := fun h => Nat.pow_le_pow_right (by decide) h
  obtain ⟨n, hn⟩ : ∃ n, n = 2044 := ⟨_, rfl⟩
  obtain ⟨c, hcd⟩ : ∃ c, c = 2 ^ n := ⟨_, rfl⟩
  have hc : 0 < c := hcd ▸ Nat.two_pow_pos n
  have pw : ∀ k, 2 ^ (k + n) = 2 ^ k * c := fun k => hcd ▸ Nat.pow_add 2 k n
  have p2045 := pw 1
  have p2097 := pw 53
  have p2098 := pw 54
  have hob : F64.overflowBound = (2 ^ 54 - 1) * c := by rw [hcd, hn]; rfl
  rw [hob]
  rcases hspec with ⟨h0, hv⟩ | ⟨h1, hlow, hhigh⟩
  · rw [hA]
    constructor
    · intro _; omega
    · intro _; rw [h0] at hs ⊢; omega
  · rw [← Nat.pow_add] at hlow hhigh
    rcases Nat.lt_trichotomy e (1 + n) with hlt | heq | hgt
    · have hp : 2 ^ (53 + e) ≤ 2 ^ (53 + n) := pow_le (by omega)
      rw [hA]
      constructor
      · intro _; omega
      · intro _; omega
    · -- the last binade: the significand rounds up to 2^53 exactly from the bound on
      have key : F64.divRoundEven num (den * 2 ^ e) < 2 ^ 53 ↔ num < (2 ^ 54 - 1) * c * den := by
        have hD : 0 < den * 2 ^ e := Nat.mul_pos hd (Nat.two_pow_pos _)
        have hq0 : num / (den * 2 ^ e) = num / den / 2 ^ e := (Nat.div_div_eq_div_mul ..).symm
        have hq1 : num / den / 2 ^ e < 2 ^ 53 := by
          rw [Nat.div_lt_iff_lt_mul (Nat.two_pow_pos _), ← Nat.pow_add]; exact hhigh
        have hdm := Nat.div_add_mod num (den * 2 ^ e)
        have hml := Nat.mod_lt num hD
        have he2 : den * 2 ^ e = 2 * (den * c) := by rw [heq, p2045]; ring
        have hbound : (2 ^ 54 - 1) * c * den = (2 ^ 54 - 1) * (den * c) := by ring
        rw [hbound]
        have hpos : 0 < den * c := Nat.mul_pos hd hc
        simp only [F64.divRoundEven]
        rw [hq0] at hdm ⊢
        generalize num / den / 2 ^ e = q at *
        generalize hrem : num % (den * 2 ^ e) = rem at *
        rw [he2] at hdm hml ⊢
        generalize den * c = u at *
        rcases Nat.lt_or_ge q (2 ^ 53 - 1) with hql | hqg
        · have hmul : 2 * u * (q + 1) ≤ 2 * u * (2 ^ 53 - 1) := Nat.mul_le_mul_left _ (by omega)
          have hmul' : 2 * u * (q + 1) = 2 * u * q + 2 * u := by ring
          constructor
          · intro _; omega
          · intro _; split_ifs <;> omega
        · have hqe : q = 2 ^ 53 - 1 := by omega
          subst hqe
          constructor
          · intro h; split_ifs at h <;> omega
          · intro h; split_ifs <;> omega
      rw [← key, heq]
      rw [heq] at hs
      constructor <;> intro h <;> omega
    · have hp : 2 ^ (54 + n) ≤ 2 ^ (52 + e) := pow_le (by omega)
      rw [hA]
      constructor
      · intro _; omega
      · intro _; omega

/-- Everything `round` can be: below the overflow bound the nearest value, ties to even, with the sign given; from it on the
infinity of that sign. -/
theorem F64.round_spec (neg : Bool) {num den : Nat} (hd : 0 < den) :
    (num < F64.overflowBound * den →
      F64.IsNearestEven (if neg then -(num : Int) else num) den (F64.round neg num den) ∧
      F64.neg (F64.round neg num den) = neg) ∧
    (F64.overflowBound * den ≤ num → F64.round neg num den = F64.inf neg) := by
  have hiff := F64.low_lt_iff (num := num) hd
  constructor
  · intro h
    have hlt := hiff.mpr h
    have hs := F64.significand_bounds num den
    have hmin : F64.roundMag num den = F64.roundExp (num / den) * 2 ^ 52
        + F64.divRoundEven num (den * 2 ^ F64.roundExp (num / den)) := by
      simp only [F64.roundMag]; exact Nat.min_eq_left (le_of_lt hlt)
    have hmag : F64.mag (F64.round neg num den)
        = F64.divRoundEven num (den * 2 ^ F64.roundExp (num / den)) * 2 ^ F64.roundExp (num / den) := by
      rw [F64.round, hmin]; exact F64.mag_ofSignMag neg hs.1 hs.2 hlt
    have hneg : F64.neg (F64.round neg num den) = neg := F64.neg_ofSignMag _ _
    have h63 : F64.roundMag num den < 2 ^ 63 := by rw [hmin]; exact lt_trans hlt (by decide)
    have hfrac : F64.fracField (F64.round neg num den) % 2
        = F64.divRoundEven num (den * 2 ^ F64.roundExp (num / den)) % 2 := by
      rw [F64.round, F64.fracField_ofSignMag neg h63, hmin]; omega
    have hfin : F64.isFinite (F64.round neg num den) = true := by
      rw [F64.isFinite, F64.round, F64.expField_ofSignMag neg h63, hmin]
      simp only [bne_iff_ne, ne_eq]; omega
    refine ⟨⟨hfin, fun z hz => ?_⟩, hneg⟩
    obtain ⟨mz, ez, hzm, hmz, _⟩ := F64.mag_form z hz
    have hn := F64.unit_nearest (num := num) (z := F64.mag z) hd ⟨mz, ez, hzm, hmz⟩
    simp only [← hmag] at hn
    rw [hfrac]
    -- the zero on this side is at least as far, so a value of the other sign is no nearer
    have h0 := (F64.unit_nearest (num := num) (z := 0) hd ⟨0, 0, by simp, by decide⟩).1
    simp only [← hmag] at h0
    have hsp : F64.scaled (F64.round neg num den)
        = if neg then -(F64.mag (F64.round neg num den) : Int) else F64.mag (F64.round neg num den) := by
      rw [F64.scaled, hneg]
    rw [hsp]
    unfold F64.scaled
    generalize F64.mag (F64.round neg num den) = M at *
    generalize F64.mag z = Z at *
    generalize F64.divRoundEven num (den * 2 ^ F64.roundExp (num / den)) = k at *
    have e1 : (M : Int) * (den : Int) = ((M * den : Nat) : Int) := by push_cast; rfl
    have e2 : (Z : Int) * (den : Int) = ((Z * den : Nat) : Int) := by push_cast; rfl
    have hM0 : M * den = 0 ↔ M = 0 := by simp; omega
    have hZ0 : Z * den = 0 ↔ Z = 0 := by simp; omega
    have hMZ : M * den = Z * den ↔ M = Z := Nat.mul_left_inj (by omega)
    simp only [e1, e2] at hn
    simp only [e1, Nat.cast_zero, Int.zero_mul, Int.sub_zero] at h0
    cases neg <;> cases hzn : F64.neg z <;>
      simp only [Bool.false_eq_true, reduceIte, Int.neg_mul, e1, e2] <;>
      (refine ⟨by omega, fun he hne => ?_⟩) <;>
      exact hn.2 (by omega) (by omega)
  · intro h
    have hge : ¬ _ := fun hh => absurd (hiff.mp hh) (by omega)
    have hmin : F64.roundMag num den = 2047 * 2 ^ 52 := by
      simp only [F64.roundMag]; exact Nat.min_eq_right (by simpa using hge)
    rw [F64.round, hmin, F64.inf]

end Sys2Proof.Machine
end

