-- ==== Sys2Proof/Laws/Decode.lean ====
section
/-! SUPPORT. The fields of a word that is packed from fields, and the selectors' round trips. -/

namespace Sys2Proof

/-- A packed word as a number. -/
theorem packFields_toNat (op : BitVec 8) (ch sel : BitVec 4) (imm : Sample) :
    (packFields op ch sel imm).toNat = op.toNat * 2 ^ 24 + ch.toNat * 2 ^ 20 + sel.toNat * 2 ^ 16 + imm.toNat := by
  change (op ++ ch ++ sel ++ imm : BitVec (8 + 4 + 4 + 16)).toNat = _
  rw [BitVec.toNat_append, ← Nat.shiftLeft_add_eq_or_of_lt imm.isLt, BitVec.toNat_append,
    ← Nat.shiftLeft_add_eq_or_of_lt sel.isLt, BitVec.toNat_append, ← Nat.shiftLeft_add_eq_or_of_lt ch.isLt]
  simp only [Nat.shiftLeft_eq]
  ring

@[simp] theorem packFields_op (op : BitVec 8) (ch sel : BitVec 4) (imm : Sample) :
    Word.op (packFields op ch sel imm) = op := by
  apply BitVec.eq_of_toNat_eq
  have := op.isLt; have := ch.isLt; have := sel.isLt; have := imm.isLt
  rw [Word.op, BitVec.extractLsb'_toNat, packFields_toNat, Nat.shiftRight_eq_div_pow]; omega

@[simp] theorem packFields_ch (op : BitVec 8) (ch sel : BitVec 4) (imm : Sample) :
    Word.ch (packFields op ch sel imm) = ch := by
  apply BitVec.eq_of_toNat_eq
  have := op.isLt; have := ch.isLt; have := sel.isLt; have := imm.isLt
  rw [Word.ch, BitVec.extractLsb'_toNat, packFields_toNat, Nat.shiftRight_eq_div_pow]; omega

@[simp] theorem packFields_sel (op : BitVec 8) (ch sel : BitVec 4) (imm : Sample) :
    Word.sel (packFields op ch sel imm) = sel := by
  apply BitVec.eq_of_toNat_eq
  have := op.isLt; have := ch.isLt; have := sel.isLt; have := imm.isLt
  rw [Word.sel, BitVec.extractLsb'_toNat, packFields_toNat, Nat.shiftRight_eq_div_pow]; omega

@[simp] theorem packFields_imm (op : BitVec 8) (ch sel : BitVec 4) (imm : Sample) :
    Word.imm (packFields op ch sel imm) = imm := by
  apply BitVec.eq_of_toNat_eq
  have := op.isLt; have := ch.isLt; have := sel.isLt; have := imm.isLt
  rw [Word.imm, BitVec.extractLsb'_toNat, packFields_toNat, Nat.shiftRight_eq_div_pow]; omega

/-- A word is its four fields (R81). -/
theorem packFields_of_word (w : Word) : packFields w.op w.ch w.sel w.imm = w := by
  apply BitVec.eq_of_toNat_eq
  rw [packFields_toNat, Word.op, Word.ch, Word.sel, Word.imm]
  simp only [BitVec.extractLsb'_toNat, Nat.shiftRight_eq_div_pow]
  omega

@[simp] theorem Coef.ofSel_sel (k : Coef) : Coef.ofSel k.sel = some k := by cases k <;> rfl
@[simp] theorem Param.ofSel_sel (p : Param) : Param.ofSel p.sel = some p := by cases p <;> rfl
@[simp] theorem Field.ofSel_sel (f : Field) : Field.ofSel f.sel = some f := by cases f <;> rfl

/-- A SEL value that names a coefficient, a parameter or a field is that one's. -/
theorem Coef.sel_of_ofSel : ∀ {v : BitVec 4} {k : Coef}, Coef.ofSel v = some k → k.sel = v := by
  intro v k; revert v; cases k <;> decide
theorem Param.sel_of_ofSel : ∀ {v : BitVec 4} {p : Param}, Param.ofSel v = some p → p.sel = v := by
  intro v k; revert v; cases k <;> decide
theorem Field.sel_of_ofSel : ∀ {v : BitVec 4} {f : Field}, Field.ofSel v = some f → f.sel = v := by
  intro v k; revert v; cases k <;> decide

end Sys2Proof
end

