-- ==== Sys2Proof/Laws/Filter.lean ====
section
/-! SUPPORT. What the conversions and the filter steps can do, said once. -/

namespace Sys2Proof.Machine

/-! ### Conversions -/

/-- The two bounds of Q30sat, in units of 2^-1074. -/
theorem scaled_two : F64.scaled f64Two = 2 ^ 1075 := by decide +kernel
theorem scaled_negTwo : F64.scaled f64NegTwo = -2 ^ 1075 := by decide +kernel

/-- The value of a conversion that neither is invalid nor saturates lies in [-2, 2) (R100). -/
theorem q30sat_cases (f : F64) :
    (F64.isNaN f = true ∧ q30sat f = { q := 0, inv := true, sat := false }) ∨
    (F64.isNaN f = false ∧ 2 ^ 1075 ≤ F64.scaled f ∧ q30sat f = { q := qMax, inv := false, sat := true }) ∨
    (F64.isNaN f = false ∧ F64.scaled f < -2 ^ 1075 ∧ q30sat f = { q := qMin, inv := false, sat := true }) ∨
    (F64.isNaN f = false ∧ -2 ^ 1075 ≤ F64.scaled f ∧ F64.scaled f < 2 ^ 1075 ∧
      q30sat f = { q := wrap32 (F64.truncScaled f qFrac), inv := false, sat := false }) := by
  unfold q30sat F64.ge F64.lt
  rw [scaled_two, scaled_negTwo]
  cases hn : F64.isNaN f
  · by_cases h1 : 2 ^ 1075 ≤ F64.scaled f
    · right; left; exact ⟨rfl, h1, by simp only [Bool.false_eq_true, reduceIte, h1, decide_true]⟩
    · by_cases h2 : F64.scaled f < -2 ^ 1075
      · right; right; left
        exact ⟨rfl, h2, by simp only [Bool.false_eq_true, reduceIte, h1, decide_false, h2, decide_true]⟩
      · right; right; right
        exact ⟨rfl, Int.not_lt.mp h2, Int.not_le.mp h1,
          by simp only [Bool.false_eq_true, reduceIte, h1, decide_false, h2]⟩
  · left; exact ⟨rfl, rfl⟩

/-- Everything Cvt16 can answer (R160). -/
theorem cvt16_cases (v : F64) :
    (F64.isFinite v = false ∧ cvt16 v = (0, true)) ∨
    (F64.isFinite v = true ∧ (F64.truncScaled v 0 < -2 ^ 31 ∨ 2 ^ 31 - 1 < F64.truncScaled v 0) ∧ cvt16 v = (0, true)) ∨
    (F64.isFinite v = true ∧ -2 ^ 31 ≤ F64.truncScaled v 0 ∧ F64.truncScaled v 0 ≤ 2 ^ 31 - 1 ∧
      cvt16 v = (wrap16 (F64.truncScaled v 0), false)) := by
  unfold cvt16
  cases hf : F64.isFinite v
  · left; exact ⟨rfl, rfl⟩
  · right
    by_cases h : F64.truncScaled v 0 < -2 ^ 31 ∨ 2 ^ 31 - 1 < F64.truncScaled v 0
    · left; exact ⟨rfl, h, by simp only [reduceIte, h]⟩
    · right
      have h' := not_or.mp h
      exact ⟨rfl, Int.not_lt.mp h'.1, Int.not_lt.mp h'.2, by simp only [reduceIte, h]⟩

/-! ### The integer step -/

/-- The carried remainder and the shifted value make up the accumulator (R143). -/
theorem carry_lossless (acc : BitVec 64) :
    acc.toInt = shiftedAcc .carryRemainder acc * 2 ^ 30 + (nextRemainder .carryRemainder acc).toNat := by
  have h1 : ((nextRemainder .carryRemainder acc).toNat : Int) = acc.toInt % 2 ^ 30 := by
    simp only [nextRemainder, BitVec.extractLsb'_toNat, Nat.shiftRight_zero]
    rw [BitVec.toInt_eq_toNat_bmod, Int.bmod_def]
    have := acc.isLt
    push_cast
    split <;> omega
  rw [h1]
  simp only [shiftedAcc]
  omega

/-- IntStep writes the histories from the values before it (R146). -/
@[simp] theorem intStep_x1 (pol : CarryPolicy) (q : QCoefs) (t : IntTrack) (x : Sample) : (intStep pol q t x).1.x1 = x := rfl
@[simp] theorem intStep_x2 (pol : CarryPolicy) (q : QCoefs) (t : IntTrack) (x : Sample) : (intStep pol q t x).1.x2 = t.x1 := rfl
@[simp] theorem intStep_y2 (pol : CarryPolicy) (q : QCoefs) (t : IntTrack) (x : Sample) : (intStep pol q t x).1.y2 = t.y1 := rfl
@[simp] theorem intStep_y1 (pol : CarryPolicy) (q : QCoefs) (t : IntTrack) (x : Sample) :
    (intStep pol q t x).1.y1 = wrap32 (shiftedAcc pol (IntTrack.acc q t x.toInt)) := rfl
@[simp] theorem intStep_r (pol : CarryPolicy) (q : QCoefs) (t : IntTrack) (x : Sample) :
    (intStep pol q t x).1.r = nextRemainder pol (IntTrack.acc q t x.toInt) := rfl
@[simp] theorem intStep_out (pol : CarryPolicy) (q : QCoefs) (t : IntTrack) (x : Sample) :
    (intStep pol q t x).2 = wrap16 (shiftedAcc pol (IntTrack.acc q t x.toInt)) := rfl

/-! ### The floating step -/

@[simp] theorem fltStep_xf1 (n : Nat → F64) (d : DCoefs) (t : FltTrack) (x : Sample) :
    (fltStep n d t x).track.xf1 = F64.ofInt x.toInt := rfl
@[simp] theorem fltStep_xf2 (n : Nat → F64) (d : DCoefs) (t : FltTrack) (x : Sample) :
    (fltStep n d t x).track.xf2 = t.xf1 := rfl
@[simp] theorem fltStep_yf1 (n : Nat → F64) (d : DCoefs) (t : FltTrack) (x : Sample) :
    (fltStep n d t x).track.yf1 = FltTrack.acc n d t (F64.ofInt x.toInt) := rfl
@[simp] theorem fltStep_yf2 (n : Nat → F64) (d : DCoefs) (t : FltTrack) (x : Sample) :
    (fltStep n d t x).track.yf2 = t.yf1 := rfl
@[simp] theorem fltStep_out (n : Nat → F64) (d : DCoefs) (t : FltTrack) (x : Sample) :
    (fltStep n d t x).out = (cvt16 (FltTrack.acc n d t (F64.ofInt x.toInt))).1 := rfl
@[simp] theorem fltStep_inv (n : Nat → F64) (d : DCoefs) (t : FltTrack) (x : Sample) :
    (fltStep n d t x).inv = (cvt16 (FltTrack.acc n d t (F64.ofInt x.toInt))).2 := rfl

end Sys2Proof.Machine
end

