-- ==== Sys2Proof/Laws/State.lean ====
section
/-! SUPPORT. One lemma per field for each named update of State, so that no proof unfolds a record update. -/

namespace Sys2Proof.Machine

variable (s : State)

/-! ### raiseIllegal -/

@[simp] theorem State.raiseIllegal_status : (s.raiseIllegal).status = { s.status with ill := true } := rfl
@[simp] theorem State.raiseIllegal_opr : (s.raiseIllegal).opr = s.opr := rfl
@[simp] theorem State.raiseIllegal_res : (s.raiseIllegal).res = s.res := rfl
@[simp] theorem State.raiseIllegal_q : (s.raiseIllegal).q = s.q := rfl
@[simp] theorem State.raiseIllegal_d : (s.raiseIllegal).d = s.d := rfl
@[simp] theorem State.raiseIllegal_p : (s.raiseIllegal).p = s.p := rfl
@[simp] theorem State.raiseIllegal_channels : (s.raiseIllegal).channels = s.channels := rfl
@[simp] theorem State.raiseIllegal_nanDraws : (s.raiseIllegal).nanDraws = s.nanDraws := rfl
@[simp] theorem State.raiseIllegal_pending : (s.raiseIllegal).pending = s.pending := rfl
@[simp] theorem State.raiseIllegal_observed : (s.raiseIllegal).observed = s.observed := rfl

/-! ### noteFlags -/

@[simp] theorem State.noteFlags_status (i j : Bool) : (s.noteFlags i j).status = s.status.note i j := rfl
@[simp] theorem State.noteFlags_opr (i j : Bool) : (s.noteFlags i j).opr = s.opr := rfl
@[simp] theorem State.noteFlags_res (i j : Bool) : (s.noteFlags i j).res = s.res := rfl
@[simp] theorem State.noteFlags_q (i j : Bool) : (s.noteFlags i j).q = s.q := rfl
@[simp] theorem State.noteFlags_d (i j : Bool) : (s.noteFlags i j).d = s.d := rfl
@[simp] theorem State.noteFlags_p (i j : Bool) : (s.noteFlags i j).p = s.p := rfl
@[simp] theorem State.noteFlags_channels (i j : Bool) : (s.noteFlags i j).channels = s.channels := rfl
@[simp] theorem State.noteFlags_nanDraws (i j : Bool) : (s.noteFlags i j).nanDraws = s.nanDraws := rfl
@[simp] theorem State.noteFlags_pending (i j : Bool) : (s.noteFlags i j).pending = s.pending := rfl
@[simp] theorem State.noteFlags_observed (i j : Bool) : (s.noteFlags i j).observed = s.observed := rfl

/-! ### setRes -/

@[simp] theorem State.setRes_status (v : DWord) : (s.setRes v).status = s.status := rfl
@[simp] theorem State.setRes_opr (v : DWord) : (s.setRes v).opr = s.opr := rfl
@[simp] theorem State.setRes_res (v : DWord) : (s.setRes v).res = v := rfl
@[simp] theorem State.setRes_q (v : DWord) : (s.setRes v).q = s.q := rfl
@[simp] theorem State.setRes_d (v : DWord) : (s.setRes v).d = s.d := rfl
@[simp] theorem State.setRes_p (v : DWord) : (s.setRes v).p = s.p := rfl
@[simp] theorem State.setRes_channels (v : DWord) : (s.setRes v).channels = s.channels := rfl
@[simp] theorem State.setRes_nanDraws (v : DWord) : (s.setRes v).nanDraws = s.nanDraws := rfl
@[simp] theorem State.setRes_pending (v : DWord) : (s.setRes v).pending = s.pending := rfl
@[simp] theorem State.setRes_observed (v : DWord) : (s.setRes v).observed = s.observed := rfl

/-! ### setChannel -/

@[simp] theorem State.setChannel_status (ch : ChIndex) (c : Channel) : (s.setChannel ch c).status = s.status := rfl
@[simp] theorem State.setChannel_opr (ch : ChIndex) (c : Channel) : (s.setChannel ch c).opr = s.opr := rfl
@[simp] theorem State.setChannel_res (ch : ChIndex) (c : Channel) : (s.setChannel ch c).res = s.res := rfl
@[simp] theorem State.setChannel_q (ch : ChIndex) (c : Channel) : (s.setChannel ch c).q = s.q := rfl
@[simp] theorem State.setChannel_d (ch : ChIndex) (c : Channel) : (s.setChannel ch c).d = s.d := rfl
@[simp] theorem State.setChannel_p (ch : ChIndex) (c : Channel) : (s.setChannel ch c).p = s.p := rfl
@[simp] theorem State.setChannel_channels (ch : ChIndex) (c : Channel) : (s.setChannel ch c).channels = s.channels.set ch.toNat c := rfl
@[simp] theorem State.setChannel_nanDraws (ch : ChIndex) (c : Channel) : (s.setChannel ch c).nanDraws = s.nanDraws := rfl
@[simp] theorem State.setChannel_pending (ch : ChIndex) (c : Channel) : (s.setChannel ch c).pending = s.pending := rfl
@[simp] theorem State.setChannel_observed (ch : ChIndex) (c : Channel) : (s.setChannel ch c).observed = s.observed := rfl

/-! ### spendFltDraws -/

@[simp] theorem State.spendFltDraws_status : (s.spendFltDraws).status = s.status := rfl
@[simp] theorem State.spendFltDraws_opr : (s.spendFltDraws).opr = s.opr := rfl
@[simp] theorem State.spendFltDraws_res : (s.spendFltDraws).res = s.res := rfl
@[simp] theorem State.spendFltDraws_q : (s.spendFltDraws).q = s.q := rfl
@[simp] theorem State.spendFltDraws_d : (s.spendFltDraws).d = s.d := rfl
@[simp] theorem State.spendFltDraws_p : (s.spendFltDraws).p = s.p := rfl
@[simp] theorem State.spendFltDraws_channels : (s.spendFltDraws).channels = s.channels := rfl
@[simp] theorem State.spendFltDraws_nanDraws : (s.spendFltDraws).nanDraws = s.nanDraws + fltOps := rfl
@[simp] theorem State.spendFltDraws_pending : (s.spendFltDraws).pending = s.pending := rfl
@[simp] theorem State.spendFltDraws_observed : (s.spendFltDraws).observed = s.observed := rfl

/-! ### doReset -/

@[simp] theorem State.doReset_status : (s.doReset).status = Status.reset := rfl
@[simp] theorem State.doReset_opr : (s.doReset).opr = 0 := rfl
@[simp] theorem State.doReset_res : (s.doReset).res = 0 := rfl
@[simp] theorem State.doReset_q : (s.doReset).q = QCoefs.reset := rfl
@[simp] theorem State.doReset_d : (s.doReset).d = DCoefs.reset := rfl
@[simp] theorem State.doReset_p : (s.doReset).p = Params.reset := rfl
@[simp] theorem State.doReset_channels : (s.doReset).channels = List.replicate s.nch Channel.reset := rfl
@[simp] theorem State.doReset_nanDraws : (s.doReset).nanDraws = s.nanDraws := rfl
@[simp] theorem State.doReset_pending : (s.doReset).pending = s.pending := rfl
@[simp] theorem State.doReset_observed : (s.doReset).observed = s.observed := rfl

/-! ### sendWord -/

@[simp] theorem State.sendWord_status (w : Word) : (s.sendWord w).status = s.status := rfl
@[simp] theorem State.sendWord_opr (w : Word) : (s.sendWord w).opr = s.opr := rfl
@[simp] theorem State.sendWord_res (w : Word) : (s.sendWord w).res = s.res := rfl
@[simp] theorem State.sendWord_q (w : Word) : (s.sendWord w).q = s.q := rfl
@[simp] theorem State.sendWord_d (w : Word) : (s.sendWord w).d = s.d := rfl
@[simp] theorem State.sendWord_p (w : Word) : (s.sendWord w).p = s.p := rfl
@[simp] theorem State.sendWord_channels (w : Word) : (s.sendWord w).channels = s.channels := rfl
@[simp] theorem State.sendWord_nanDraws (w : Word) : (s.sendWord w).nanDraws = s.nanDraws := rfl
@[simp] theorem State.sendWord_pending (w : Word) : (s.sendWord w).pending = .write 0x0C w :: s.pending := rfl
@[simp] theorem State.sendWord_observed (w : Word) : (s.sendWord w).observed = s.observed := rfl

/-! ### NCH -/

@[simp] theorem State.nch_raiseIllegal : s.raiseIllegal.nch = s.nch := rfl
@[simp] theorem State.nch_noteFlags (i j : Bool) : (s.noteFlags i j).nch = s.nch := rfl
@[simp] theorem State.nch_setRes (v : DWord) : (s.setRes v).nch = s.nch := rfl
@[simp] theorem State.nch_spendFltDraws : s.spendFltDraws.nch = s.nch := rfl
@[simp] theorem State.nch_sendWord (w : Word) : (s.sendWord w).nch = s.nch := rfl
@[simp] theorem State.nch_setChannel (ch : ChIndex) (c : Channel) : (s.setChannel ch c).nch = s.nch := by
  simp [State.nch]
@[simp] theorem State.nch_doReset : s.doReset.nch = s.nch := by
  simp [State.nch]

/-! ### STATUS and the coefficient registers -/

@[simp] theorem Status.note_ill (f : Status) (i j : Bool) : (f.note i j).ill = f.ill := rfl
@[simp] theorem Status.note_inv (f : Status) (i j : Bool) : (f.note i j).inv = (f.inv || i) := rfl
@[simp] theorem Status.note_sat (f : Status) (i j : Bool) : (f.note i j).sat = (f.sat || j) := rfl
@[simp] theorem Status.clear_ill (f : Status) (w : Word) : (f.clear w).ill = (f.ill && !w.getLsbD 0) := rfl
@[simp] theorem Status.clear_inv (f : Status) (w : Word) : (f.clear w).inv = (f.inv && !w.getLsbD 1) := rfl
@[simp] theorem Status.clear_sat (f : Status) (w : Word) : (f.clear w).sat = (f.sat && !w.getLsbD 2) := rfl

/-- Nothing reported changes nothing. -/
@[simp] theorem Status.note_false_false (f : Status) : f.note false false = f := by
  cases f; simp [Status.note]

/-- A loaded coefficient reads back, and no other but its alias changes (R26, R86). -/
theorem QCoefs.get_set (q : QCoefs) (k j : Coef) (v : Word) (hk : k.loadable = true) :
    (q.set k v).get j = if j = k ∨ (j = .b2 ∧ k = .b0) then v else q.get j := by
  cases k <;> cases j <;> simp_all [QCoefs.set, QCoefs.get, Coef.loadable]

/-- The same of the binary64 forms. -/
theorem DCoefs.get_set (d : DCoefs) (k j : Coef) (v : F64) (hk : k.loadable = true) :
    (d.set k v).get j = if j = k ∨ (j = .b2 ∧ k = .b0) then v else d.get j := by
  cases k <;> cases j <;> simp_all [DCoefs.set, DCoefs.get, Coef.loadable]

end Sys2Proof.Machine
end

