-- ==== Sys2Proof/Laws/Ops.lean ====
section
/-! SUPPORT. What each shared operation can do, said once. -/

namespace Sys2Proof.Machine

/-! ### A command on a channel -/

/-- On a channel the engine has, `onChannel` does what its body says. -/
theorem onChannel_of_lt {ch : ChIndex} {s : State} {f : Channel → State} (h : ch.toNat < s.nch) :
    onChannel ch s f = .next (f (s.channels[ch.toNat]'h)) := by
  have hc : s.channels[ch.toNat]? = some (s.channels[ch.toNat]'h) := List.getElem?_eq_getElem h
  simp only [onChannel, hc]

/-- On any other channel it is IllegalCommand. -/
theorem onChannel_of_ge {ch : ChIndex} {s : State} {f : Channel → State} (h : s.nch ≤ ch.toNat) :
    onChannel ch s f = .next s.raiseIllegal := by
  have : s.channels[ch.toNat]? = none := List.getElem?_eq_none h
  simp [onChannel, this, illegalCommand]

/-- Everything `onChannel` can answer. -/
theorem onChannel_cases {ch : ChIndex} {s t : State} {f : Channel → State} (h : onChannel ch s f = .next t) :
    (∃ c, s.channels[ch.toNat]? = some c ∧ t = f c) ∨
    (s.channels[ch.toNat]? = none ∧ t = s.raiseIllegal) := by
  unfold onChannel at h
  split at h
  · rename_i c hc
    exact .inl ⟨c, hc, by simpa using h.symm⟩
  · rename_i hn
    exact .inr ⟨hn, by simpa [illegalCommand] using h.symm⟩

/-- `onChannel` always answers a next state. -/
theorem onChannel_completes (ch : ChIndex) (s : State) (f : Channel → State) :
    ∃ t, onChannel ch s f = .next t := by
  unfold onChannel
  split
  · exact ⟨_, rfl⟩
  · exact ⟨_, rfl⟩

/-- A channel slot written reads back. -/
theorem State.setChannel_self {s : State} {ch : ChIndex} (c : Channel) (h : ch.toNat < s.nch) :
    (s.setChannel ch c).channels[ch.toNat]? = some c := by
  simp [List.getElem?_set_self (show ch.toNat < s.channels.length from h)]

/-- No other channel slot changes (R28). -/
theorem State.setChannel_other {s : State} {ch : ChIndex} (c : Channel) {d : Nat} (h : d ≠ ch.toNat) :
    (s.setChannel ch c).channels[d]? = s.channels[d]? := by
  simp [List.getElem?_set_ne (Ne.symm h)]

/-- The frame of `setChannel`, in the terms of Safety.lean. -/
theorem State.setChannel_sameOther (s : State) (ch : ChIndex) (c : Channel) :
    SameOtherChannels ch.toNat s (s.setChannel ch c) :=
  ⟨by simp, fun _ h => State.setChannel_other c h⟩

/-! ### CTRL -/

/-- A write of CTRL changes no number of channels (R56). -/
@[simp] theorem writePolicies_length (cs : List Channel) (w : Word) : (writePolicies cs w).length = cs.length := by
  simp [writePolicies]

/-- A write of CTRL, channel by channel (R56). -/
theorem writePolicies_getElem? (cs : List Channel) (w : Word) (c : Nat) :
    (writePolicies cs w)[c]? =
      (cs[c]?).map fun ch => { ch with pol := CarryPolicy.ofBit (w.getLsbD c) } := by
  simp [writePolicies, List.getElem?_mapIdx]

/-- Bit c of the policies' number is POL[c] (R23). -/
theorem policyBits_testBit (cs : List Channel) (c : Nat) :
    (policyBits cs).testBit c = ((cs[c]?).map fun ch => decide (ch.pol = .roundAndReset)).getD false := by
  induction cs generalizing c with
  | nil => simp [policyBits]
  | cons a as ih =>
    have hb : a.pol.bit < 2 := by cases a.pol <;> simp [CarryPolicy.bit]
    cases c with
    | zero => cases h : a.pol <;> simp [policyBits, CarryPolicy.bit, Nat.testBit_zero, h, Nat.add_mul_mod_self_left]
    | succ n =>
      have : (a.pol.bit + 2 * policyBits as) / 2 = policyBits as := by omega
      simp [policyBits, Nat.testBit_succ, this, ih]

/-! ### The port -/

/-- The port has exactly the 32-bit accesses at a multiple of 4 in the window (R50). -/
theorem offsetRefusal_eq_none (off : Nat) : offsetRefusal off = none ↔ off < 0x40 ∧ off % 4 = 0 := by
  unfold offsetRefusal
  split
  · simp; omega
  · split <;> simp <;> omega

/-- A step with an event pending serves that event from the state without it. -/
theorem step_of_pending {s : State} {e : HostEvent} {rest : List HostEvent} (h : s.pending = e :: rest) :
    step s = portStep e { s with pending := rest } := by
  simp [step, serveNext, h]

/-- The command a step runs is the one its word decodes to. -/
theorem State.runs_unique {s : State} {w : Word} {rest : List HostEvent} {i j : Instr}
    (hr : s.runs j) (hp : s.pending = .write 0x0C w :: rest) (hd : decode s.nch w = some i) : j = i := by
  obtain ⟨w', ⟨rest', hp'⟩, hd'⟩ := hr
  rw [hp] at hp'
  injection hp' with h1 h2
  injection h1 with h3 h4
  subst h4
  rw [hd] at hd'
  exact (Option.some.inj hd').symm

/-- Everything a step can do: nothing where no event is pending; a reset; a read, which only observes; a register write; a
command word that decodes; an illegal command word. -/
theorem step_cases {s t : State} (h : step s = .next t) :
    (s.pending = [] ∧ t = s) ∨
    ∃ e rest, s.pending = e :: rest ∧ e.onPort = true ∧
      ((e = .reset ∧ t = State.doReset { s with pending := rest }) ∨
       (∃ off, e = .read off ∧
          t = { s with pending := rest, observed := s.observed ++ [s.readReg (PortReg.ofOffset off)] }) ∨
       (∃ off w, e = .write off w ∧ PortReg.ofOffset off ≠ .cmd ∧
          t = State.writeReg { s with pending := rest } w (PortReg.ofOffset off)) ∨
       (∃ w i, e = .write 0x0C w ∧ decode s.nch w = some i ∧ exec i { s with pending := rest } = .next t) ∨
       (∃ w, e = .write 0x0C w ∧ decode s.nch w = none ∧ t = State.raiseIllegal { s with pending := rest })) := by
  cases hp : s.pending with
  | nil =>
    left
    simp [step, serveNext, hp] at h
    exact ⟨rfl, h.symm⟩
  | cons e rest =>
    right
    rw [step_of_pending hp] at h
    refine ⟨e, rest, rfl, ?_⟩
    cases e with
    | reset =>
      simp only [portStep, Host.Outcome.next.injEq] at h
      exact ⟨rfl, .inl ⟨rfl, h.symm⟩⟩
    | read off =>
      simp only [portStep, portRead] at h
      cases ho : offsetRefusal off with
      | some r => simp [ho] at h
      | none =>
        simp only [ho, Host.Outcome.next.injEq] at h
        refine ⟨by simpa [HostEvent.onPort] using (offsetRefusal_eq_none off).mp ho, .inr (.inl ⟨off, rfl, ?_⟩)⟩
        rw [← h]
        cases hr : PortReg.ofOffset off <;> simp [State.readReg]
    | write off w =>
      simp only [portStep, portWrite] at h
      cases ho : offsetRefusal off with
      | some r => simp [ho] at h
      | none =>
        have hon := (offsetRefusal_eq_none off).mp ho
        refine ⟨by simpa [HostEvent.onPort] using hon, ?_⟩
        simp only [ho] at h
        by_cases hc : PortReg.ofOffset off = .cmd
        · have : off = 0x0C := by
            unfold PortReg.ofOffset at hc
            split at hc <;> simp_all
          subst this
          simp only [hc, runWord] at h
          right; right; right
          cases hd : decode s.nch w with
          | some i =>
            left
            refine ⟨w, i, rfl, hd, ?_⟩
            simpa [State.nch, show decode s.channels.length w = some i from hd] using h
          | none =>
            right
            refine ⟨w, rfl, hd, ?_⟩
            have h' := h
            simp only [State.nch, show decode s.channels.length w = none from hd, illegalCommand,
              Host.Outcome.next.injEq] at h'
            exact h'.symm
        · right; right; left
          refine ⟨off, w, rfl, hc, ?_⟩
          cases hr : PortReg.ofOffset off <;> simp_all
    | other wd off => simp [portStep] at h

end Sys2Proof.Machine
end

