-- ==== Sys2Proof/Laws/PerInstr.lean ====
section
/-! SUPPORT. Statements made per instruction, one lemma per constructor of Instr. -/

namespace Sys2Proof.Laws.Fields

/-- The four fields of a command's word are the ones R81 and R84 give it. -/
def Statement (i : Instr) : Prop :=
  Word.op (encode i) = i.opcode ∧ Word.ch (encode i) = i.chField ∧ Word.sel (encode i) = i.selField ∧
    Word.imm (encode i) = i.immField

theorem all (i : Instr) : Statement i := by simp [Statement, encode]

theorem nop : Statement .nop := all _
theorem srst : Statement .srst := all _
theorem clrch (ch : ChIndex) : Statement (.clrch ch) := all _
theorem cvt : Statement .cvt := all _
theorem ldq (k : Coef) : Statement (.ldq k) := all _
theorem ldd (k : Coef) : Statement (.ldd k) := all _
theorem rdq (k : Coef) : Statement (.rdq k) := all _
theorem rdd (k : Coef) : Statement (.rdd k) := all _
theorem setfc : Statement .setfc := all _
theorem setq : Statement .setq := all _
theorem setfs : Statement .setfs := all _
theorem ccalc : Statement .ccalc := all _
theorem rdp (p : Param) : Statement (.rdp p) := all _
theorem stepi (ch : ChIndex) (imm : Sample) : Statement (.stepi ch imm) := all _
theorem stepf (ch : ChIndex) (imm : Sample) : Statement (.stepf ch imm) := all _
theorem stepd (ch : ChIndex) (imm : Sample) : Statement (.stepd ch imm) := all _
theorem rdst (ch : ChIndex) (f : Field) : Statement (.rdst ch f) := all _
theorem wrst (ch : ChIndex) (f : Field) : Statement (.wrst ch f) := all _

end Sys2Proof.Laws.Fields
end

