-- ==== Sys2Proof/Tests/Slice0.lean ====
section
/-! SUPPORT. The model's own tests. Every expected value is one that spec/ states: 95_test_vectors.md (V-...), the worked
encodings of R93 and the examples of the command rules. After them one witness for the hypotheses of each obligation. -/

namespace Sys2Proof.Tests

open Sys2Proof Sys2Proof.Machine

-- one theorem at a time: each kernel check has a thread of its own, and a sandbox has room for few
set_option Elab.async false

/-! ### Small states -/

/-- The state a command leaves. -/
def run (i : Instr) (s : State) : State :=
  match exec i s with
  | .next t => t
  | .fault _ => s
  | .refused _ => s

/-- The state one step leaves. -/
def after (s : State) : State :=
  match step s with
  | .next t => t
  | .fault _ => s
  | .refused _ => s

/-- The reset state with a value in OPR. -/
def withOpr (v : DWord) : State := { State.reset with opr := v }

/-- The reset state with one event pending. -/
def withEvent (e : HostEvent) : State := { State.reset with pending := [e] }

/-- The reset state with given Q30 coefficients, and a given policy and integer track on channel 0. -/
def intState (b0 b1 a1 a2 : Word) (pol : CarryPolicy) (t : IntTrack) : State :=
  { State.reset with
    q := { b0 := b0, b1 := b1, a1 := a1, a2 := a2 }
    channels := [{ pol := pol, int := t, flt := FltTrack.reset }, Channel.reset] }

/-- The binary64 coefficients of V-CC2 (Fc = 200). -/
def dAt200 : DCoefs :=
  { b0 := 0x3F260CA2AFF1DB8E, b1 := 0x3F360CA2AFF1DB8E, a1 := 0xBFFF685829147394, a2 := 0x3FEED6337AD4E39E }

/-- No NaN is drawn in these runs; this is what they would draw. -/
def someNaN : Nat → F64 := fun _ => 0x7FF8000000000000

/-- The slot I8f starts from. -/
def trackI8f : IntTrack := { x1 := 1000, x2 := BitVec.ofInt 16 (-1000), y1 := 500, y2 := BitVec.ofInt 32 (-500), r := 12345 }

/-! ### WellFormed refuses an ill-formed term of each check (R82, R86) -/

theorem test_wf_ldq_b2 : Instr.wf 2 (.ldq .b2) = false := by decide
theorem test_wf_ldd_b2 : Instr.wf 2 (.ldd .b2) = false := by decide
theorem test_wf_clrch_c2 : Instr.wf 2 (.clrch 2) = false := by decide
theorem test_wf_stepi_c2 : Instr.wf 2 (.stepi 2 0) = false ∧ Instr.wf 1 (.stepi 1 0) = false := by decide
theorem test_wf_stepf_c15 : Instr.wf 2 (.stepf 15 0) = false := by decide
theorem test_wf_stepd_c2 : Instr.wf 2 (.stepd 2 0) = false := by decide
theorem test_wf_rdst_c2 : Instr.wf 2 (.rdst 2 .x1) = false := by decide
theorem test_wf_wrst_c2 : Instr.wf 2 (.wrst 2 .yf2) = false := by decide
theorem test_wf_legal : Instr.wf 2 (.rdq .b2) = true ∧ Instr.wf 2 (.stepi 1 0x8000) = true := by decide

/-! ### Decoding: OP CCCC SSSS IIIIIIIIIIIIIIII, written out from R81 and R84; V-E and R93 -/

theorem test_decode_nop : decode 2 0b00000000000000000000000000000000 = some .nop := by decide
theorem test_decode_srst : decode 2 0b00000001000000000000000000000000 = some .srst := by decide
theorem test_decode_clrch : decode 2 0b00000010000100000000000000000000 = some (.clrch 1) := by decide
theorem test_decode_cvt : decode 2 0b00010000000000000000000000000000 = some .cvt := by decide
theorem test_decode_ldq : decode 2 0b00010001000000010000000000000000 = some (.ldq .b1) := by decide
theorem test_decode_ldd : decode 2 0b00010010000000110000000000000000 = some (.ldd .a1) := by decide
theorem test_decode_rdq : decode 2 0b00010011000000100000000000000000 = some (.rdq .b2) := by decide
theorem test_decode_rdd : decode 2 0b00010100000001000000000000000000 = some (.rdd .a2) := by decide
theorem test_decode_setfc : decode 2 0b00100000000000000000000000000000 = some .setfc := by decide
theorem test_decode_setq : decode 2 0b00100001000000000000000000000000 = some .setq := by decide
theorem test_decode_setfs : decode 2 0b00100010000000000000000000000000 = some .setfs := by decide
theorem test_decode_ccalc : decode 2 0b00100011000000000000000000000000 = some .ccalc := by decide
theorem test_decode_rdp : decode 2 0b00100100000000100000000000000000 = some (.rdp .fs) := by decide
theorem test_decode_stepi : decode 2 0b00110000000100001111111110011100 = some (.stepi 1 (BitVec.ofInt 16 (-100))) := by decide
theorem test_decode_stepf : decode 2 0b00110001000000000010011100010000 = some (.stepf 0 10000) := by decide
theorem test_decode_stepd : decode 2 0b00110010000100001000000000000000 = some (.stepd 1 0x8000) := by decide
theorem test_decode_rdst : decode 2 0b00111000000110000000000000000000 = some (.rdst 1 .yf2) := by decide
theorem test_decode_wrst : decode 2 0b00111001000001000000000000000000 = some (.wrst 0 .r) := by decide

/-- The illegal words of V-E. -/
theorem test_decode_illegal :
    [0x00000001#32, 0x01100000#32, 0x02200000#32, 0x02000001#32, 0x03000000#32, 0xFF000000#32, 0x10100000#32, 0x11020000#32,
     0x11050000#32, 0x14050000#32, 0x24030000#32, 0x23000001#32, 0x30200000#32, 0x30010000#32, 0x31F00000#32,
     0x38090000#32].all (fun w => (decode 2 w).isNone && !legalWord 2 w) = true := by decide

/-- A channel that NCH = 1 does not have. -/
theorem test_decode_one_channel : decode 1 0x30100000 = none ∧ decode 1 0x30000064 = some (.stepi 0 100) := by decide

theorem test_decodeTableWord : decodeTableWord 32 0x3010FF9C = some (.stepi 1 0xFF9C) := by decide
theorem test_decodeTableWord_illegal : decodeTableWord 32 0x11020000 = none := by decide

/-! ### The port and the step (V-C) -/

/-- `rdp fs` as the first command after reset (R123's example); the word is served and gone. -/
theorem test_withFetchWord :
    step (State.reset.withFetchWord 32 0x24020000) = .next { State.reset with res := 0xBB80 } := rfl
theorem test_idle_step : step State.reset = .next State.reset := rfl
theorem test_illegal_word : (after (withEvent (.write 0x0C 0x11020000))).status = { ill := true, inv := false, sat := false } := by
  decide +kernel
theorem test_read_id : (after (withEvent (.read 0x00))).observed = [0x42510007] := by decide +kernel
theorem test_ctrl_all_ones :
    (after (withEvent (.write 0x08 0xFFFFFFFF))).readReg .ctrl = 3 := by decide +kernel
theorem test_status_w1c :
    (after { withEvent (.write 0x04 5) with status := { ill := true, inv := true, sat := true } }).readReg .status = 2 := by
  decide +kernel
theorem test_status_ignores_high_bits :
    (after { withEvent (.write 0x04 0xFFFFFFF8) with status := { ill := false, inv := true, sat := false } }).readReg .status = 2 := by
  decide +kernel
theorem test_misaligned : step (withEvent (.read 0x3E)) = .refused .misaligned := rfl
theorem test_outside : step (withEvent (.write 0x40 0)) = .refused .outsideWindow := rfl
theorem test_width : step (withEvent (.other .byte 0x10)) = .refused .accessWidth := rfl

/-! ### One or two cases per command -/

theorem test_nop : run .nop (withOpr 5) = withOpr 5 := by decide +kernel
/-- R181's flags: a pending ILL, INV or SAT is cleared. -/
theorem test_srst : run .srst { withOpr 5 with status := { ill := true, inv := true, sat := true }, res := 9 } = State.reset := by
  decide +kernel
theorem test_clrch :
    (run (.clrch 0) (intState 1 2 3 4 .roundAndReset trackI8f)).channels
      = [{ pol := .roundAndReset, int := IntTrack.reset, flt := FltTrack.reset }, Channel.reset] := by decide +kernel
/-- V-Q: -1.5. -/
theorem test_cvt_neg : (run .cvt (withOpr 0xBFF8000000000000)).res = 0xFFFFFFFFA0000000 := by decide +kernel
/-- V-Q: -2.0000000000000004. -/
theorem test_cvt_sat :
    (run .cvt (withOpr 0xC000000000000001)).res = 0xFFFFFFFF80000000 ∧
    (run .cvt (withOpr 0xC000000000000001)).status = { ill := false, inv := false, sat := true } := by decide +kernel
/-- V-L: OPR[63:32] is ignored, and D[b1] stays. -/
theorem test_ldq :
    (run (.ldq .b1) (withOpr 0x123456789ABCDEF0)).q.b1 = 0x9ABCDEF0 ∧
    (run (.ldq .b1) (withOpr 0x123456789ABCDEF0)).d.b1 = 0 := by decide +kernel
/-- V-L: 3.0 saturates. -/
theorem test_ldd_sat :
    (run (.ldd .a2) (withOpr 0x4008000000000000)).q.a2 = 0x7FFFFFFF ∧
    (run (.ldd .a2) (withOpr 0x4008000000000000)).d.a2 = 0x4008000000000000 ∧
    (run (.ldd .a2) (withOpr 0x4008000000000000)).status.sat = true := by decide +kernel
/-- V-L: a NaN is stored as written. -/
theorem test_ldd_nan :
    (run (.ldd .a2) (withOpr 0x7FF8000000000000)).q.a2 = 0 ∧
    (run (.ldd .a2) (withOpr 0x7FF8000000000000)).d.a2 = 0x7FF8000000000000 ∧
    (run (.ldd .a2) (withOpr 0x7FF8000000000000)).status.inv = true := by decide +kernel
/-- V-L: rdq b1 after the ldq; b2 reads b0. -/
theorem test_rdq :
    (run (.rdq .b1) (run (.ldq .b1) (withOpr 0x123456789ABCDEF0))).res = 0xFFFFFFFF9ABCDEF0 ∧
    (run (.rdq .b2) (run (.ldq .b0) (withOpr 0x2C194))).res = 180628 := by decide +kernel
/-- V-L: b2 reads b0's -0.0. -/
theorem test_rdd : (run (.rdd .b2) (run (.ldd .b0) (withOpr 0x8000000000000000))).res = 0x8000000000000000 := by decide +kernel
theorem test_setfc : (run .setfc (withOpr 0x4069000000000000)).p.fc = 0x4069000000000000 := by decide +kernel
theorem test_setq : (run .setq (withOpr 0x4024000000000000)).p.qf = 0x4024000000000000 := by decide +kernel
/-- V-PA: OPR[63:32] is ignored. -/
theorem test_setfs : (run .setfs (withOpr 0xFFFFFFFF0000BB80)).p.fs = 48000 := by decide +kernel
theorem test_rdp : (run (.rdp .fs) State.reset).res = 0xBB80 ∧ (run (.rdp .qf) State.reset).res = 0x3FE69FBE76C8B439 := by
  decide +kernel
/-- V-CC1, from its t2 and its K. -/
theorem test_ccalc_listing :
    ccalcAngle someNaN 0x40C3880000000000 48000 = 0x3FE4F1A6C638D03F ∧
    ccalcFromK someNaN 0x3FE88DF153D6A676 0x3FE69FBE76C8B439
      = { b0 := 0x3FCC2EE5D0507D58, b1 := 0x3FDC2EE5D0507D58, a1 := 0xBFD3AEDBBF4FD756, a2 := 0x3FC8194EBFE1A40B } ∧
    quantize { b0 := 0x3FCC2EE5D0507D58, b1 := 0x3FDC2EE5D0507D58, a1 := 0xBFD3AEDBBF4FD756, a2 := 0x3FC8194EBFE1A40B }
      = { b0 := 0x0E1772E8, b1 := 0x1C2EE5D0, a1 := 0xEC512441, a2 := 0x0C0CA75F } := by decide +kernel
/-- V-CC3 row c: Q = 0.0. -/
theorem test_ccalc_q_zero :
    F64.isNaN (ccalcFromK someNaN 0x3FE88DF153D6A676 0).a2 = true ∧
    (ccalcFromK someNaN 0x3FE88DF153D6A676 0).b1 = 0 ∧
    (ccalcFromK someNaN 0x3FE88DF153D6A676 0).a1 = 0x8000000000000000 := by decide +kernel
/-- V-I I8d: the sum -2^63 - 2^31 + 1 wraps. -/
theorem test_stepi_wrap :
    let t := run (.stepi 0 (BitVec.ofInt 16 (-1))) (intState 0x7FFFFFFF 0 0x80000000 0x80000000 .carryRemainder
      { x1 := 0, x2 := 0, y1 := 0x80000000, y2 := 0x80000000, r := 0 })
    t.res = 0xFFFFFFFFFFFFFFFE ∧ (t.channels.map Channel.int).head?
      = some { x1 := BitVec.ofInt 16 (-1), x2 := 0, y1 := BitVec.ofInt 32 (-2), y2 := 0x80000000, r := 1 } := by decide +kernel
/-- V-I I8g. -/
theorem test_stepi_round :
    let t := run (.stepi 0 0x8000) (intState 0x0002C194 0x00058328 0x825E9F5C 0x3DAC66F5 .roundAndReset trackI8f)
    t.res = 1458 ∧ (t.channels.map Channel.int).head?
      = some { x1 := 0x8000, x2 := 1000, y1 := 1458, y2 := 500, r := 0 } := by decide +kernel
/-- V-F2, step 1. -/
theorem test_stepf :
    let t := run (.stepf 0 10000) { State.reset with d := dAt200 }
    t.res = 1 ∧ (t.channels.map fun c => c.flt.yf1).head? = some 0x3FFAEA6C97C6BC83 := by decide +kernel
/-- V-F3: an accumulator outside int32. -/
theorem test_stepf_invalid :
    let t := run (.stepf 0 32767) { State.reset with d := { b0 := 0x4130000000000000, b1 := 0, a1 := 0, a2 := 0 } }
    t.res = 0 ∧ t.status.inv = true ∧ (t.channels.map fun c => F64.scaled c.flt.yf1).head? = some (34358689792 * 2 ^ 1074) := by
  decide +kernel
/-- V-D2: 65534 wraps to -2. -/
theorem test_stepd :
    (run (.stepd 0 32767) { State.reset with
      d := { b0 := 0x3FF0000000000000, b1 := 0, a1 := 0, a2 := 0 }
      q := { b0 := 0xC0000000, b1 := 0, a1 := 0, a2 := 0 } }).res = 0xFFFFFFFFFFFFFFFE := by decide +kernel
/-- R183's example, after I8h. -/
theorem test_rdst :
    (run (.rdst 0 .r) (run (.stepi 0 100) (intState 180628 0 0 0 .carryRemainder IntTrack.reset))).res = 0x1139DD0 := by
  decide +kernel
/-- V-C: the bits above the field's width are ignored. -/
theorem test_wrst :
    (run (.rdst 1 .r) (run (.wrst 1 .r) (withOpr 0xFFFFFFFFFFFFFFFF))).res = 0x3FFFFFFF ∧
    (run (.rdst 0 .x2) (run (.wrst 0 .x2) (withOpr 0x18000))).res = 0xFFFFFFFFFFFF8000 := by decide +kernel

/-! ### Cvt16 (V-F), and the memory of the engine -/

theorem test_cvt16 :
    cvt16 0x40DFFFF99999999A = (32767, false) ∧ cvt16 0xC0E0003000000000 = (32767, false) ∧
    cvt16 0x41E0000000000000 = (0, true) ∧ cvt16 0xC1E00000001CCCCD = (0, false) ∧
    cvt16 0x41DFFFFFFFF9999A = (BitVec.ofInt 16 (-1), false) := by decide +kernel

/-- P1's text, line by line: `setspec 200.0, 48000, 0.707`. -/
theorem test_setspec :
    (assembleLine 2 "setspec 200.0, 48000, 0.707    ; 0x20000000").map (fun ls => ls.flatMap (AsmLine.events 0))
      = some [.write 0x10 0, .write 0x14 0x40690000, .write 0x0C 0x20000000,
              .write 0x10 0x0000BB80, .write 0x14 0, .write 0x0C 0x22000000,
              .write 0x10 0x76C8B439, .write 0x14 0x3FE69FBE, .write 0x0C 0x21000000] := by decide +kernel

/-! ### Witnesses: a state and operands that meet the hypotheses of each obligation, clause by clause -/

/-- A state with every flag set. -/
def flagged (e : HostEvent) : State := { withEvent e with status := { ill := true, inv := true, sat := true } }

/-- What a step of `s` answers is the next state `after s`. -/
def completes (s : State) : Bool :=
  match step s with
  | .next _ => true
  | .fault _ => false
  | .refused _ => false

theorem step_after {s : State} (h : completes s = true) : step s = .next (after s) := by
  unfold completes at h
  unfold after
  split at h <;> simp_all

theorem witness_ResetAndSrstGiveTheResetState : (flagged .reset).pending = .reset :: [] := by decide

theorem witness_StepRunsTheDecodedCommand :
    (withEvent (.write 0x0C 0x3010FF9C)).pending = .write 0x0C 0x3010FF9C :: [] ∧
    decode (withEvent (.write 0x0C 0x3010FF9C)).nch 0x3010FF9C = some (.stepi 1 0xFF9C) := by decide

theorem witness_IllegalWordSetsIllAndNothingElse :
    (withEvent (.write 0x0C 0xFFFFFFFF)).pending = .write 0x0C 0xFFFFFFFF :: [] ∧
    legalWord (withEvent (.write 0x0C 0xFFFFFFFF)).nch 0xFFFFFFFF = false := by decide

theorem witness_LegalCommandsCompleteAndOthersAreIllegal :
    Instr.wf State.reset.nch (.stepd 1 0xFFFF) = true ∧ Instr.wf State.reset.nch (.stepd 2 0) = false ∧
    Instr.wf State.reset.nch (.ldq .a2) = true ∧ Instr.wf State.reset.nch (.ldq .b2) = false := by decide

theorem witness_EveryPortEventCompletes :
    (withEvent .reset).pending = .reset :: [] ∧ HostEvent.onPort .reset = true ∧
    (withEvent (.read 0)).pending = .read 0 :: [] ∧ HostEvent.onPort (.read 0) = true ∧
    (withEvent (.write 0x3C 0)).pending = .write 0x3C 0 :: [] ∧ HostEvent.onPort (.write 0x3C 0) = true := by decide

/-- Three transactions served, one left. -/
theorem witness_StepsServeTransactionsInOrder :
    { State.reset with pending := [.write 0x10 5, .write 0x0C 0x11000000, .read 0x10, .reset] }.pending
      = [.write 0x10 5, .write 0x0C 0x11000000, .read 0x10] ++ [.reset] := by decide

theorem witness_AccessesThePortLacksAreRefused :
    0x01 % 4 ≠ 0 ∧ (withEvent (.read 0x01)).pending = .read 0x01 :: [] ∧
    0x3F % 4 ≠ 0 ∧ (withEvent (.write 0x3F 7)).pending = .write 0x3F 7 :: [] ∧
    (withEvent (.other .doubleword 0x18)).pending = .other .doubleword 0x18 :: [] := by decide

/-- Every offset of the table falls under one clause: each is below 0x40 and a multiple of 4. -/
theorem witness_ReadsReturnTheTableValueAndChangeNothing :
    [0x00, 0x04, 0x08, 0x0C, 0x10, 0x14, 0x18, 0x1C, 0x20, 0x3C].all (fun off =>
      decide (off < 0x40 ∧ off % 4 = 0 ∧ (withEvent (.read off)).pending = .read off :: [])) = true ∧
    0 < 32 ∧ 31 < 32 ∧ ∀ o ∈ [0x00, 0x3C], o < 0x40 ∧ o % 4 = 0 := by decide

theorem witness_StatusWriteClearsOnes : (flagged (.write 0x04 7)).pending = .write 0x04 7 :: [] := by decide

theorem witness_CtrlWriteSetsEveryPolicy :
    (withEvent (.write 0x08 1)).pending = .write 0x08 1 :: [] ∧
    (withEvent (.write 0x08 1)).channels[0]? = some Channel.reset ∧
    (withEvent (.write 0x08 1)).channels[1]? = some Channel.reset := by decide

theorem witness_OprHalvesAreWrittenAlone :
    (withEvent (.write 0x10 9)).pending = .write 0x10 9 :: [] ∧ (withEvent (.write 0x14 9)).pending = .write 0x14 9 :: [] := by
  decide

theorem witness_IgnoredAndOutsideAccesses :
    [0x00, 0x18, 0x1C, 0x20, 0x3C].all (fun off =>
      decide ((off = 0x00 ∨ off = 0x18 ∨ off = 0x1C ∨ (0x20 ≤ off ∧ off < 0x40 ∧ off % 4 = 0)) ∧
        (withEvent (.write off 1)).pending = .write off 1 :: [])) = true ∧
    [0x20, 0x3C].all (fun off => decide (0x20 ≤ off ∧ off < 0x40 ∧ off % 4 = 0 ∧
        (withEvent (.read off)).pending = .read off :: [])) = true ∧
    0x40 ≤ 0x40 ∧ (withEvent (.read 0x40)).pending = .read 0x40 :: [] ∧
    (withEvent (.write 0x40 1)).pending = .write 0x40 1 :: [] := by decide

/-- BQE_BASE is open, so the address past the window is named from it. -/
theorem witness_WindowBytesAreLittleEndian :
    0 < 8 ∧ 7 < 8 ∧ 0x3F < 0x40 ∧
    (Config.bqeBase + 0x40 < Config.bqeBase ∨ Config.bqeBase + 0x40 ≤ Config.bqeBase + 0x40) := by
  refine ⟨by decide, by decide, by decide, .inr (Nat.le_refl _)⟩

theorem witness_DecodeOfEncodeIsTheCommand :
    Instr.wf 2 (.wrst 1 .yf2) = true ∧ Instr.wf 1 (.stepi 0 0x8000) = true ∧ Instr.wf 2 (.ldd .a2) = true := by decide

theorem witness_EncodeOfDecodeIsTheWord : decode 2 0x39180000 = some (.wrst 1 .yf2) := by decide

theorem witness_MatchAndMaskSelectTheOpcode : decode 2 0x3010FFFF = some (.stepi 1 0xFFFF) := by decide

theorem witness_AssembledCommandsAreLegal :
    assembleLine 2 "STEPI c1, -32768 ; the least sample" = some [.command (.stepi 1 0x8000)] ∧
    assembleLine 1 "wrst c0, yf2" = some [.command (.wrst 0 .yf2)] := by decide +kernel

theorem witness_PseudoInstructionsHaveTheirEffect :
    State.reset.Inv ∧ State.reset.channels[(1 : ChIndex).toNat]? = some Channel.reset ∧ Coef.a2 ≠ Coef.b2 :=
  ⟨.inr rfl, by decide, by decide⟩

theorem witness_EveryStepKeepsTheInvariant :
    (withEvent (.write 0x08 3)).Inv ∧ step (withEvent (.write 0x08 3)) = .next (after (withEvent (.write 0x08 3))) :=
  ⟨.inr rfl, rfl⟩

/-- Each flag goes from set to clear, by each of the three causes. -/
theorem witness_FlagsAreClearedOnlyByTheHost :
    [HostEvent.write 0x04 7, .reset, .write 0x0C 0x01000000].all (fun e =>
      completes (flagged e) && (flagged e).status.ill && (flagged e).status.inv && (flagged e).status.sat
        && !(after (flagged e)).status.ill && !(after (flagged e)).status.inv && !(after (flagged e)).status.sat) = true := by
  decide +kernel

/-- ILL by an illegal word, INV by CVT of a NaN, SAT by CVT of 2.0. -/
theorem witness_FlagsAreSetOnlyByTheListedCommands :
    (completes (withEvent (.write 0x0C 1)) = true ∧ (withEvent (.write 0x0C 1)).status.ill = false ∧
      (after (withEvent (.write 0x0C 1))).status.ill = true) ∧
    (completes { withEvent (.write 0x0C 0x10000000) with opr := 0x7FF8000000000000 } = true ∧
      (after { withEvent (.write 0x0C 0x10000000) with opr := 0x7FF8000000000000 }).status.inv = true) ∧
    (completes { withEvent (.write 0x0C 0x10000000) with opr := 0x4000000000000000 } = true ∧
      (after { withEvent (.write 0x0C 0x10000000) with opr := 0x4000000000000000 }).status.sat = true) := by decide +kernel

theorem witness_ResIsWrittenOnlyByTheListedCommands :
    completes (withEvent (.write 0x0C 0x24020000)) = true ∧
    (after (withEvent (.write 0x0C 0x24020000))).res ≠ (withEvent (.write 0x0C 0x24020000)).res := by decide +kernel

/-- A step that neither resets nor runs SRST, for each register: OPR, POL, Q and D (LDD of 1.0), P (SETFC). -/
theorem witness_EachRegisterHasItsWriters :
    (completes (withEvent (.write 0x10 1)) = true ∧ (after (withEvent (.write 0x10 1))).opr ≠ 0) ∧
    (completes (withEvent (.write 0x08 1)) = true ∧
      (after (withEvent (.write 0x08 1))).channels.map Channel.pol ≠ (withEvent (.write 0x08 1)).channels.map Channel.pol) ∧
    (completes { withEvent (.write 0x0C 0x12000000) with opr := 0x3FF0000000000000 } = true ∧
      (after { withEvent (.write 0x0C 0x12000000) with opr := 0x3FF0000000000000 }).q ≠ QCoefs.reset ∧
      (after { withEvent (.write 0x0C 0x12000000) with opr := 0x3FF0000000000000 }).d ≠ DCoefs.reset) ∧
    (completes (withEvent (.write 0x0C 0x20000000)) = true ∧ (after (withEvent (.write 0x0C 0x20000000))).p ≠ Params.reset) := by
  decide +kernel

/-- None of those four steps serves a reset or runs SRST. -/
theorem witness_EachRegisterHasItsWriters_premises (v : DWord) (e : HostEvent)
    (h : e = .write 0x10 1 ∨ e = .write 0x08 1 ∨ e = .write 0x0C 0x12000000 ∨ e = .write 0x0C 0x20000000) :
    ¬ ({ withEvent e with opr := v } : State).serves .reset ∧ ¬ ({ withEvent e with opr := v } : State).runs .srst := by
  rcases h with rfl | rfl | rfl | rfl <;> refine ⟨by simp [State.serves, withEvent], fun hr => ?_⟩
  · simp [State.runs, State.serves, withEvent] at hr
  · simp [State.runs, State.serves, withEvent] at hr
  · simpa using State.runs_unique (i := .ldd .b0) hr rfl (show decode 2 0x12000000 = some (.ldd .b0) by decide)
  · simpa using State.runs_unique (i := .setfc) hr rfl (show decode 2 0x20000000 = some .setfc by decide)

theorem witness_CommandsLeaveOtherChannels :
    (withEvent (.write 0x0C 0x30100001)).runs (.stepi 1 1) ∧ Instr.stepi 1 1 ≠ .srst ∧
    step (withEvent (.write 0x0C 0x30100001)) = .next (after (withEvent (.write 0x0C 0x30100001))) ∧
    ∀ ch, (Instr.stepi 1 1).channel? = some ch → 0 ≠ ch.toNat :=
  ⟨⟨0x30100001, ⟨[], rfl⟩, by decide⟩, by decide, step_after (by decide +kernel), by
    intro ch h; cases h; decide⟩

theorem witness_FormsAgreeUntilAnLdq :
    State.Coherent { withEvent (.write 0x0C 0x12000000) with opr := 0x3FF0000000000000 } ∧
    completes { withEvent (.write 0x0C 0x12000000) with opr := 0x3FF0000000000000 } = true ∧
    ∀ k, ¬ ({ withEvent (.write 0x0C 0x12000000) with opr := 0x3FF0000000000000 } : State).runs (.ldq k) := by
  refine ⟨by unfold State.Coherent; decide +kernel, by decide +kernel, fun k hr => ?_⟩
  simpa using State.runs_unique (i := .ldd .b0) hr rfl (show decode 2 0x12000000 = some (.ldd .b0) by decide)

theorem witness_FloatInputsStaySamples :
    (∀ c ∈ (withEvent (.write 0x0C 0x31007FFF)).channels, c.flt.inputsAreSamples) ∧
    completes (withEvent (.write 0x0C 0x31007FFF)) = true ∧
    ∀ ch, ¬ (withEvent (.write 0x0C 0x31007FFF)).runs (.wrst ch .xf1) ∧ ¬ (withEvent (.write 0x0C 0x31007FFF)).runs (.wrst ch .xf2) := by
  have hd : decode 2 0x31007FFF = some (.stepf 0 32767) := by decide
  refine ⟨fun c hc => ?_, by decide +kernel, fun ch => ⟨fun hr => ?_, fun hr => ?_⟩⟩
  · have h : c = Channel.reset := List.eq_of_mem_replicate hc
    rw [h]
    exact ⟨0, 0, by decide +kernel, by decide +kernel⟩
  · simpa using State.runs_unique (i := .stepf 0 32767) hr rfl hd
  · simpa using State.runs_unique (i := .stepf 0 32767) hr rfl hd

/-- The lowest and the highest channel of the reset state. -/
theorem witness_ClrchZeroesItsSlotAlone :
    State.reset.channels[(0 : ChIndex).toNat]? = some Channel.reset ∧
    State.reset.channels[(1 : ChIndex).toNat]? = some Channel.reset := by decide

theorem witness_RdstReturnsTheField : State.reset.channels[(1 : ChIndex).toNat]? = some Channel.reset := by decide
theorem witness_WrstWritesOneFieldFromOpr : State.reset.channels[(1 : ChIndex).toNat]? = some Channel.reset := by decide
theorem witness_StepfComputesTheListing : State.reset.channels[(1 : ChIndex).toNat]? = some Channel.reset := by decide

/-- NaN; 2.0 and +inf; just below -2.0; -2.0 and just below 2.0. -/
theorem witness_Q30satConvertsByTruncation :
    F64.isNaN 0x7FF0000000000001 = true ∧
    (F64.isNaN 0x4000000000000000 = false ∧ 2 * 2 ^ 1074 ≤ F64.scaled 0x4000000000000000) ∧
    (F64.isNaN 0x7FF0000000000000 = false ∧ 2 * 2 ^ 1074 ≤ F64.scaled 0x7FF0000000000000) ∧
    (F64.isNaN 0xC000000000000001 = false ∧ F64.scaled 0xC000000000000001 < -2 * 2 ^ 1074) ∧
    (F64.isNaN 0xC000000000000000 = false ∧ -2 * 2 ^ 1074 ≤ F64.scaled 0xC000000000000000 ∧
      F64.scaled 0xC000000000000000 < 2 * 2 ^ 1074) ∧
    (F64.isNaN 0x3FFFFFFFFFFFFFFF = false ∧ -2 * 2 ^ 1074 ≤ F64.scaled 0x3FFFFFFFFFFFFFFF ∧
      F64.scaled 0x3FFFFFFFFFFFFFFF < 2 * 2 ^ 1074) := by decide +kernel

/-- f = 0, the largest below 1.0, -1.0, and the smallest negative subnormal, each with its double. -/
theorem witness_DoubledCoefficientTolerance :
    [(0x0000000000000000#64, 0x0000000000000000#64), (0x3FEFFFFFFFFFFFFF#64, 0x3FFFFFFFFFFFFFFF#64),
      (0xBFF0000000000000#64, 0xC000000000000000#64), (0x8000000000000001#64, 0x8000000000000002#64)].all (fun p =>
      decide (F64.isFinite p.1 = true ∧ F64.isFinite p.2 = true ∧ F64.scaled p.2 = 2 * F64.scaled p.1 ∧
        ((0 ≤ F64.scaled p.1 ∧ F64.scaled p.1 < 2 ^ 1074) ∨ (-2 ^ 1074 ≤ F64.scaled p.1 ∧ F64.scaled p.1 < 0)))) = true := by
  decide +kernel

theorem witness_LdqLoadsTheQ30FormAlone : Coef.b0 ≠ .b2 ∧ Coef.a2 ≠ .b2 := by decide
theorem witness_LddLoadsBothForms : Coef.b1 ≠ .b2 ∧ Coef.a1 ≠ .b2 := by decide

/-- V-CC1: the K and Q there, and what the listing makes of them. -/
theorem witness_CcalcDoublesB0Exactly :
    ({ b0 := 0x3FCC2EE5D0507D58, b1 := 0x3FDC2EE5D0507D58, a1 := 0xBFD3AEDBBF4FD756, a2 := 0x3FC8194EBFE1A40B } : DCoefs)
      = ccalcFromK someNaN 0x3FE88DF153D6A676 0x3FE69FBE76C8B439 ∧
    F64.isFinite 0x3FCC2EE5D0507D58 = true ∧ F64.mag 0x3FCC2EE5D0507D58 < 2 ^ 1023 * 2 ^ 1074 ∧
    0 ≤ F64.scaled 0x3FCC2EE5D0507D58 ∧ F64.scaled 0x3FCC2EE5D0507D58 < 2 ^ 1074 := by decide +kernel

theorem witness_CcalcWithZeroSampleRateIsInvalid : { State.reset with p := { Params.reset with fs := 0 } }.p.fs = 0 := rfl

theorem witness_StepiCarriesTheRemainder :
    State.reset.channels[(1 : ChIndex).toNat]? = some Channel.reset ∧ Channel.reset.pol = .carryRemainder := by decide

theorem witness_StepiRoundsAndResets :
    (intState 1 2 3 4 .roundAndReset trackI8f).channels[(0 : ChIndex).toNat]?
      = some { pol := .roundAndReset, int := trackI8f, flt := FltTrack.reset } := by decide

/-- A remainder is held through silence. -/
theorem witness_SilenceIsAFixedPoint :
    (intState 1 2 3 4 .carryRemainder { IntTrack.reset with r := 0x3FFFFFFF }).channels[(0 : ChIndex).toNat]?
      = some { pol := .carryRemainder, int := { x1 := 0, x2 := 0, y1 := 0, y2 := 0, r := 0x3FFFFFFF }, flt := FltTrack.reset } := by
  decide

/-- The edges of the band, -743 and 743. -/
theorem witness_RoundingDeadBandAt200Hz :
    [(-743 : Int), 743].all (fun y =>
      let t : IntTrack := { x1 := 0, x2 := 0, y1 := BitVec.ofInt 32 y, y2 := BitVec.ofInt 32 y, r := 0 }
      let s := intState 0x0002C194 0x00058328 0x825E9F5C 0x3DAC66F5 .roundAndReset t
      decide (s.channels[(0 : ChIndex).toNat]? = some { pol := .roundAndReset, int := t, flt := FltTrack.reset } ∧
        s.q.a1 = 0x825E9F5C ∧ s.q.a2 = 0x3DAC66F5 ∧ -743 ≤ y ∧ y ≤ 743)) = true := by decide

/-- Channel 0's commands with zeros, and with the largest sample and a CLRCH, on channel 1. -/
theorem witness_OutputsIgnoreOtherChannels :
    let p : List Instr := [.stepi 0 9677, .stepi 1 0, .stepi 0 5]
    let p' : List Instr := [.stepi 1 32767, .stepi 0 9677, .clrch 1, .stepi 0 5]
    (0 : ChIndex).toNat < State.reset.nch ∧
    (∀ i ∈ p, i.channel? ≠ none ∧ i.wf State.reset.nch = true) ∧ (∀ i ∈ p', i.channel? ≠ none ∧ i.wf State.reset.nch = true) ∧
    p.filter (fun i => decide (i.channel? = some 0)) = p'.filter (fun i => decide (i.channel? = some 0)) := by decide

/-- An ordinary sum, a sum that overflows, an exact zero; and the same of the difference. -/
theorem witness_AddAndSubRoundToNearestEven :
    F64.isFinite 0x7FEFFFFFFFFFFFFF = true ∧ F64.isFinite 0x0000000000000001 = true ∧ F64.isFinite 0xFFEFFFFFFFFFFFFF = true ∧
    (F64.scaled 0x7FEFFFFFFFFFFFFF + F64.scaled 0x0000000000000001).natAbs < F64.overflowBound ∧
    F64.overflowBound ≤ (F64.scaled 0x7FEFFFFFFFFFFFFF + F64.scaled 0x7FEFFFFFFFFFFFFF).natAbs ∧
    F64.scaled 0x7FEFFFFFFFFFFFFF + F64.scaled 0xFFEFFFFFFFFFFFFF = 0 ∧
    (F64.scaled 0x7FEFFFFFFFFFFFFF - F64.scaled 0x0000000000000001).natAbs < F64.overflowBound ∧
    F64.overflowBound ≤ (F64.scaled 0x7FEFFFFFFFFFFFFF - F64.scaled 0xFFEFFFFFFFFFFFFF).natAbs ∧
    F64.scaled 0x0000000000000001 - F64.scaled 0x0000000000000001 = 0 := by decide +kernel

theorem witness_MulRoundsToNearestEven :
    F64.isFinite 0x7FEFFFFFFFFFFFFF = true ∧ F64.isFinite 0x4000000000000000 = true ∧ F64.isFinite 0x3FF0000000000000 = true ∧
    (F64.scaled 0x7FEFFFFFFFFFFFFF * F64.scaled 0x3FF0000000000000).natAbs < F64.overflowBound * 2 ^ 1074 ∧
    F64.overflowBound * 2 ^ 1074 ≤ (F64.scaled 0x7FEFFFFFFFFFFFFF * F64.scaled 0x4000000000000000).natAbs := by decide +kernel

theorem witness_DivRoundsToNearestEven :
    F64.isFinite 0x7FEFFFFFFFFFFFFF = true ∧ F64.isFinite 0x3FE0000000000000 = true ∧ F64.isFinite 0xBFF0000000000000 = true ∧
    F64.scaled 0xBFF0000000000000 ≠ 0 ∧ F64.scaled 0x3FE0000000000000 ≠ 0 ∧
    (F64.scaled 0x7FEFFFFFFFFFFFFF * 2 ^ 1074).natAbs < F64.overflowBound * F64.mag 0xBFF0000000000000 ∧
    F64.overflowBound * F64.mag 0x3FE0000000000000 ≤ (F64.scaled 0x7FEFFFFFFFFFFFFF * 2 ^ 1074).natAbs := by decide +kernel

/-- A NaN; infinities; finite values, a zero among them. -/
theorem witness_SpecialOperandsFollowIeee754 :
    F64.isNaN 0xFFF8000000000000 = true ∧ F64.isInf 0x7FF0000000000000 = true ∧ F64.isInf 0xFFF0000000000000 = true ∧
    F64.isFinite 0x8000000000000000 = true ∧ F64.isFinite 0x3FF0000000000000 = true ∧
    F64.scaled 0x8000000000000000 = 0 ∧ F64.scaled 0x3FF0000000000000 ≠ 0 := by decide +kernel

theorem witness_IntegersConvertExactly :
    (2 ^ 53 : Int).natAbs ≤ 2 ^ 53 ∧ (-2 ^ 53 : Int).natAbs ≤ 2 ^ 53 ∧ (-32768 : Int).natAbs ≤ 2 ^ 53 := by decide

/-- A NaN, an infinity, and finite values at both ends of int32. -/
theorem witness_Cvt16TruncatesAndWraps :
    F64.isNaN 0x7FF8000000000000 = true ∧ F64.isInf 0xFFF0000000000000 = true ∧ F64.isFinite 0x41E0000000000000 = true ∧
    F64.truncScaled 0x41E0000000000000 0 = 2 ^ 31 ∧ F64.truncScaled 0x41DFFFFFFFF9999A 0 = 2 ^ 31 - 1 ∧
    F64.truncScaled 0xC1E0000000000000 0 = -2 ^ 31 := by decide +kernel

/-- A NaN or an infinity in each field of the history. -/
theorem witness_NonFiniteHistoryPropagates :
    [{ FltTrack.reset with xf1 := 0x7FF0000000000000 }, { FltTrack.reset with xf2 := 0xFFF0000000000000 },
      { FltTrack.reset with yf1 := 0x7FF8000000000000 }, { FltTrack.reset with yf2 := 0x7FF0000000000000 }].all (fun t =>
      decide ({ State.reset with channels := [{ Channel.reset with flt := t }] }.channels[(0 : ChIndex).toNat]?
          = some { Channel.reset with flt := t } ∧
        (F64.isFinite t.xf1 = false ∨ F64.isFinite t.xf2 = false ∨ F64.isFinite t.yf1 = false ∨ F64.isFinite t.yf2 = false)))
      = true := by decide

theorem witness_StepdIsStepfAndStepi : (1 : ChIndex).toNat < State.reset.nch := by decide

end Sys2Proof.Tests
end

section
/-! PROOFS. The number of channels and the reserved bits of CTRL and STATUS (R6, R22, R23). -/

namespace Sys2Proof.Machine

/-! ### Every command keeps NCH -/

/-- A command on a channel keeps NCH when its body does. -/
theorem onChannel_nch {ch : ChIndex} {s t : State} {f : Channel → State} (hf : ∀ c, (f c).nch = s.nch)
    (h : onChannel ch s f = .next t) : t.nch = s.nch := by
  obtain ⟨c, -, rfl⟩ | ⟨-, rfl⟩ := onChannel_cases h
  · exact hf c
  · exact State.nch_raiseIllegal s

/-- A command that loads a coefficient keeps NCH when its effect does. -/
theorem ite_illegalCommand_nch {b : Bool} {s t u : State}
    (h : (if b then .next u else illegalCommand s) = Host.Outcome.next t) (hu : u.nch = s.nch) : t.nch = s.nch := by
  cases b with
  | true => cases h; exact hu
  | false => cases h; exact State.nch_raiseIllegal s

/-- No command changes the number of channels (R6). -/
theorem exec_nch {i : Instr} {s t : State} (h : exec i s = .next t) : t.nch = s.nch := by
  cases i with
  | nop => cases h; rfl
  | srst => cases h; exact State.nch_doReset s
  | cvt => cases h; rfl
  | ldq k => exact ite_illegalCommand_nch h rfl
  | ldd k => exact ite_illegalCommand_nch h rfl
  | rdq k => cases h; rfl
  | rdd k => cases h; rfl
  | setfc => cases h; rfl
  | setq => cases h; rfl
  | setfs => cases h; rfl
  | ccalc => cases h; rfl
  | rdp p => cases h; rfl
  | clrch ch => exact onChannel_nch (fun _ => State.nch_setChannel s ch _) h
  | stepi ch imm => exact onChannel_nch (fun _ => by simp) h
  | stepf ch imm => exact onChannel_nch (fun _ => by simp) h
  | stepd ch imm => exact onChannel_nch (fun _ => by simp) h
  | rdst ch f => exact onChannel_nch (fun _ => State.nch_setRes s _) h
  | wrst ch f => exact onChannel_nch (fun _ => State.nch_setChannel s ch _) h

/-! ### Every step keeps NCH -/

/-- No register write changes the number of channels; CTRL's replaces each policy in place (R56). -/
theorem State.nch_writeReg (s : State) (w : Word) (r : PortReg) : (s.writeReg w r).nch = s.nch := by
  cases r with
  | ctrl => exact writePolicies_length s.channels w
  | _ => rfl

/-- No step changes the number of channels (R6). -/
theorem step_nch {s t : State} (h : step s = .next t) : t.nch = s.nch := by
  obtain ⟨-, rfl⟩ | ⟨e, rest, -, -, hserved⟩ := step_cases h
  · rfl
  · obtain ⟨-, rfl⟩ | ⟨off, -, rfl⟩ | ⟨off, w, -, -, rfl⟩ | ⟨w, i, -, -, hexec⟩ | ⟨w, -, -, rfl⟩ := hserved
    · exact State.nch_doReset _
    · rfl
    · exact State.nch_writeReg _ w _
    · exact (exec_nch hexec :)
    · rfl

/-! ### The reserved bits -/

/-- One bit per channel. -/
theorem policyBits_lt (cs : List Channel) : policyBits cs < 2 ^ cs.length := by
  induction cs with
  | nil => exact Nat.one_pos
  | cons c cs ih =>
    have hbit : c.pol.bit < 2 := by cases c.pol <;> decide
    simp only [policyBits, List.length_cons, Nat.pow_succ]
    omega

/-- The bits of CTRL above NCH read as 0 (R23). -/
theorem ctrlWord_toNat_lt (cs : List Channel) : (ctrlWord cs).toNat < 2 ^ cs.length :=
  calc (ctrlWord cs).toNat = policyBits cs % 2 ^ 32 := BitVec.toNat_ofNat ..
    _ ≤ policyBits cs := Nat.mod_le ..
    _ < 2 ^ cs.length := policyBits_lt cs

/-- The bits of STATUS above 2 read as 0 (R22). -/
theorem Status.word_toNat_lt (f : Status) : f.word.toNat < 2 ^ 3 := by
  obtain ⟨ill, inv, sat⟩ := f
  revert ill inv sat
  decide

/-- Settles O22: no step changes the number of channels, so the invariant carries over, and the two registers have no more
bits than channels and flags. -/
theorem everyStepKeepsTheInvariant : Obligations.EveryStepKeepsTheInvariant := by
  intro s t hinv hstep
  have hnch : t.nch = s.nch := step_nch hstep
  refine ⟨?_, hnch, ctrlWord_toNat_lt t.channels, t.status.word_toNat_lt⟩
  rw [State.Inv, hnch]
  exact hinv

end Sys2Proof.Machine
end

section
/-! PROOFS. The binary64 operations on finite operands round the exact result once, to nearest, ties to even (R10). -/

namespace Sys2Proof.Machine

/-! ### The classes of a pattern -/

theorem F64.isNaN_of_isFinite {p : F64} (h : F64.isFinite p = true) : F64.isNaN p = false :=
  ((F64.isFinite_iff p).mp h).1

theorem F64.isInf_of_isFinite {p : F64} (h : F64.isFinite p = true) : F64.isInf p = false :=
  ((F64.isFinite_iff p).mp h).2

/-- A pattern whose lower 63 bits stay below an infinity's is finite. -/
theorem F64.isFinite_ofSignMag (b : Bool) {low : Nat} (h : low < 2047 * 2 ^ 52) :
    F64.isFinite (F64.ofSignMag b low) = true := by
  rw [F64.isFinite, F64.expField_ofSignMag b (by omega), bne_iff_ne]
  omega

@[simp] theorem F64.isNaN_negate (p : F64) : F64.isNaN (F64.negate p) = F64.isNaN p := by
  simp only [F64.isNaN, F64.expField_negate, F64.fracField_negate]

@[simp] theorem F64.isInf_negate (p : F64) : F64.isInf (F64.negate p) = F64.isInf p := by
  simp only [F64.isInf, F64.expField_negate, F64.fracField_negate]

@[simp] theorem F64.isFinite_negate (p : F64) : F64.isFinite (F64.negate p) = F64.isFinite p := by
  simp only [F64.isFinite, F64.expField_negate]

/-- `inf` has the fields of an infinity. -/
theorem F64.expField_inf (b : Bool) : F64.expField (F64.inf b) = 2047 :=
  F64.expField_ofSignMag b (by decide)

theorem F64.fracField_inf (b : Bool) : F64.fracField (F64.inf b) = 0 :=
  F64.fracField_ofSignMag b (by decide)

theorem F64.isInf_inf (b : Bool) : F64.isInf (F64.inf b) = true := by
  rw [F64.isInf, F64.expField_inf, F64.fracField_inf]; rfl

/-- `zero` is a finite pattern of the value 0. -/
theorem F64.isFinite_zero (b : Bool) : F64.isFinite (F64.zero b) = true := F64.isFinite_ofSignMag b (by decide)

theorem F64.mag_zero (b : Bool) : F64.mag (F64.zero b) = 0 :=
  (F64.mag_ofSignMag b (e := 0) (m := 0) (by decide) (.inl rfl) (by decide)).trans (Nat.zero_mul _)

theorem F64.scaled_zero (b : Bool) : F64.scaled (F64.zero b) = 0 := by
  cases b <;> simp [F64.scaled, F64.mag_zero]

/-! ### Values and magnitudes -/

theorem F64.natAbs_scaled (p : F64) : (F64.scaled p).natAbs = F64.mag p := by
  unfold F64.scaled; split <;> simp

/-- The value is 0 exactly where the magnitude is. -/
theorem F64.isZero_eq (p : F64) : F64.isZero p = decide (F64.scaled p = 0) := by
  rw [F64.isZero, ← F64.natAbs_scaled, Bool.beq_eq_decide_eq, decide_eq_decide, Int.natAbs_eq_zero]

/-- The product of two values has the exclusive or of their signs. -/
theorem F64.scaled_mul_scaled (a b : F64) :
    F64.scaled a * F64.scaled b
      = if F64.neg a != F64.neg b then -((F64.mag a * F64.mag b : Nat) : Int) else ((F64.mag a * F64.mag b : Nat) : Int) := by
  unfold F64.scaled
  cases F64.neg a <;> cases F64.neg b <;> simp

/-- A value scaled up by `k` and given another nonzero value's sign has the exclusive or of the two signs. -/
theorem F64.scaled_mul_sign (a : F64) (k : Nat) {b : F64} (hb : F64.scaled b ≠ 0) :
    F64.scaled a * k * (F64.scaled b).sign
      = if F64.neg a != F64.neg b then -((F64.mag a * k : Nat) : Int) else ((F64.mag a * k : Nat) : Int) := by
  have hpos : 0 < F64.mag b := by rw [← F64.natAbs_scaled]; exact Int.natAbs_pos.mpr hb
  have hsign : (F64.scaled b).sign = if F64.neg b then -1 else 1 := by
    unfold F64.scaled
    cases F64.neg b
    · exact Int.sign_eq_one_of_pos (by simpa using hpos)
    · exact Int.sign_eq_neg_one_of_neg (by simpa using hpos)
  rw [hsign]
  unfold F64.scaled
  cases F64.neg a <;> cases F64.neg b <;> simp

/-- An integer from its sign and its magnitude. -/
theorem ite_neg_natAbs (n : Int) : (if decide (n < 0) = true then -(n.natAbs : Int) else n.natAbs) = n := by
  simp only [decide_eq_true_eq]; split <;> omega

/-- The same of a multiple of the unit 2^-1074. -/
theorem ite_neg_natAbs_mul_two_pow (n : Int) (k : Nat) :
    (if decide (n < 0) = true then -((n.natAbs * 2 ^ k : Nat) : Int) else (n.natAbs * 2 ^ k : Nat)) = n * 2 ^ k := by
  rw [Nat.cast_mul, Nat.cast_pow, Nat.cast_ofNat, ← Int.neg_mul, ← ite_mul, ite_neg_natAbs]

/-- A value in a finer unit has its magnitude in that unit. -/
theorem F64.natAbs_scaled_mul_two_pow (p : F64) (k : Nat) : (F64.scaled p * 2 ^ k).natAbs = F64.mag p * 2 ^ k := by
  rw [Int.natAbs_mul, F64.natAbs_scaled, Int.natAbs_pow]; rfl

/-! ### The sign and the class of a rounded result -/

theorem F64.neg_round (neg : Bool) (num den : Nat) : F64.neg (F64.round neg num den) = neg := F64.neg_ofSignMag _ _

/-- From the overflow bound on, `round` gives an infinity. -/
theorem F64.isInf_round_of_overflow (neg : Bool) {num den : Nat} (hd : 0 < den)
    (h : F64.overflowBound * den ≤ num) : F64.isInf (F64.round neg num den) = true := by
  rw [(F64.round_spec neg hd).2 h]; exact F64.isInf_inf neg

/-- Below the overflow bound it gives the nearest value. -/
theorem F64.round_isNearestEven (neg : Bool) {num den : Nat} (hd : 0 < den) (h : num < F64.overflowBound * den) :
    F64.IsNearestEven (if neg then -(num : Int) else num) den (F64.round neg num den) :=
  ((F64.round_spec neg hd).1 h).1

/-- A zero is the nearest value to 0. -/
theorem F64.isNearestEven_zero (b : Bool) : F64.IsNearestEven 0 1 (F64.zero b) := by
  refine ⟨F64.isFinite_zero b, fun z _ => ?_⟩
  rw [F64.scaled_zero]
  exact ⟨by omega, fun heq hne => by omega⟩

/-! ### The operations on finite operands -/

section
variable {a b : F64} (nan : F64) (ha : F64.isFinite a = true) (hb : F64.isFinite b = true)
include ha hb

theorem F64.add_of_isFinite : F64.add nan a b = F64.addFinite a b := by
  simp only [F64.add, F64.isNaN_of_isFinite ha, F64.isNaN_of_isFinite hb, F64.isInf_of_isFinite ha,
    F64.isInf_of_isFinite hb, Bool.or_self, Bool.false_eq_true, if_false]

theorem F64.mul_of_isFinite :
    F64.mul nan a b = F64.round (F64.neg a != F64.neg b) (F64.mag a * F64.mag b) (2 ^ 1074) := by
  simp only [F64.mul, F64.isNaN_of_isFinite ha, F64.isNaN_of_isFinite hb, F64.isInf_of_isFinite ha,
    F64.isInf_of_isFinite hb, Bool.or_self, Bool.false_eq_true, if_false]

theorem F64.div_of_isFinite (hz : F64.scaled b ≠ 0) :
    F64.div nan a b = F64.round (F64.neg a != F64.neg b) (F64.mag a * 2 ^ 1074) (F64.mag b) := by
  simp only [F64.div, F64.isNaN_of_isFinite ha, F64.isNaN_of_isFinite hb, F64.isInf_of_isFinite ha,
    F64.isInf_of_isFinite hb, F64.isZero_eq b, hz, decide_false, Bool.or_self, Bool.false_eq_true, if_false]

end

/-- `addFinite` rounds the exact sum once, and gives its zeros the signs of IEEE 754. -/
theorem F64.addFinite_spec (a b : F64) :
    ((F64.scaled a + F64.scaled b).natAbs < F64.overflowBound →
      F64.IsNearestEven (F64.scaled a + F64.scaled b) 1 (F64.addFinite a b)) ∧
    (F64.overflowBound ≤ (F64.scaled a + F64.scaled b).natAbs →
      F64.addFinite a b = F64.inf (decide (F64.scaled a + F64.scaled b < 0))) ∧
    (F64.scaled a + F64.scaled b = 0 → F64.addFinite a b = F64.zero (F64.neg a && F64.neg b)) := by
  unfold F64.addFinite
  generalize F64.scaled a + F64.scaled b = n
  by_cases hn : n = 0
  · subst hn
    have hpos : 0 < F64.overflowBound := by unfold F64.overflowBound; positivity
    exact ⟨fun _ => F64.isNearestEven_zero _, fun h => absurd h (Nat.not_le.mpr hpos), fun _ => rfl⟩
  · have spec := F64.round_spec (decide (n < 0)) (num := n.natAbs) Nat.one_pos
    rw [Nat.mul_one, ite_neg_natAbs] at spec
    simp only [if_neg hn]
    exact ⟨fun h => (spec.1 h).1, spec.2, fun h => absurd h hn⟩

/-- Settles O51: the difference is the sum with the second operand negated, so both are `addFinite`'s rounding. -/
theorem addAndSubRoundToNearestEven : Obligations.AddAndSubRoundToNearestEven := by
  intro nan a b ha hb
  have hsub : F64.sub nan a b = F64.addFinite a (F64.negate b) :=
    F64.add_of_isFinite nan ha ((F64.isFinite_negate b).trans hb)
  obtain ⟨sumNear, sumOver, sumZero⟩ := F64.addFinite_spec a b
  obtain ⟨diffNear, diffOver, diffZero⟩ := F64.addFinite_spec a (F64.negate b)
  rw [F64.scaled_negate, ← Int.sub_eq_add_neg] at diffNear diffOver diffZero
  rw [F64.neg_negate] at diffZero
  rw [F64.add_of_isFinite nan ha hb, hsub]
  exact ⟨sumNear, sumOver, sumZero, diffNear, diffOver, diffZero⟩

/-- Settles O52: the magnitudes' product over 2^1074, rounded with the exclusive or of the signs. -/
theorem mulRoundsToNearestEven : Obligations.MulRoundsToNearestEven := by
  intro nan a b ha hb
  have hd : 0 < 2 ^ 1074 := by positivity
  rw [F64.mul_of_isFinite nan ha hb, Int.natAbs_mul, F64.natAbs_scaled, F64.natAbs_scaled, F64.scaled_mul_scaled]
  exact ⟨F64.round_isNearestEven _ hd, F64.isInf_round_of_overflow _ hd, F64.neg_round _ _ _⟩

/-- Settles O53: the dividend's magnitude in units of 2^-2148 over the divisor's, rounded with the exclusive or of the signs. -/
theorem divRoundsToNearestEven : Obligations.DivRoundsToNearestEven := by
  intro nan a b ha hb hz
  have hd : 0 < F64.mag b := by rw [← F64.natAbs_scaled]; exact Int.natAbs_pos.mpr hz
  have hval := F64.scaled_mul_sign a (2 ^ 1074) hz
  rw [Nat.cast_pow, Nat.cast_ofNat] at hval
  rw [F64.div_of_isFinite nan ha hb hz, F64.natAbs_scaled_mul_two_pow, hval]
  exact ⟨F64.round_isNearestEven _ hd, F64.isInf_round_of_overflow _ hd, F64.neg_round _ _ _⟩

/-! ### Special operands -/

theorem F64.isInf_iff (p : F64) : F64.isInf p = true ↔ F64.expField p = 2047 ∧ F64.fracField p = 0 := by
  simp only [F64.isInf, Bool.and_eq_true, beq_iff_eq]

theorem F64.isNaN_of_isInf {p : F64} (h : F64.isInf p = true) : F64.isNaN p = false := by
  obtain ⟨-, hfrac⟩ := (F64.isInf_iff p).mp h
  simp only [F64.isNaN, hfrac, bne_self_eq_false, Bool.and_false]

/-- Only where the exponent field is 0 (a zero, a subnormal) can the magnitude be 0. -/
theorem F64.mag_pos_of_expField {p : F64} (h : F64.expField p ≠ 0) : 0 < F64.mag p := by
  rw [F64.mag, if_neg h]; positivity

/-- An infinity is no zero: its magnitude is the model's 2^2098. -/
theorem F64.isZero_of_isInf {p : F64} (h : F64.isInf p = true) : F64.isZero p = false := by
  obtain ⟨hexp, -⟩ := (F64.isInf_iff p).mp h
  have hmag : 0 < F64.mag p := F64.mag_pos_of_expField (by omega)
  exact beq_eq_false_iff_ne.mpr hmag.ne'

/-- The infinities are the two patterns `inf` writes. -/
theorem F64.eq_inf_of_isInf {p : F64} (h : F64.isInf p = true) : p = F64.inf (F64.neg p) := by
  obtain ⟨hexp, hfrac⟩ := (F64.isInf_iff p).mp h
  exact F64.eq_of_fields (F64.neg_ofSignMag _ _).symm (hexp.trans (F64.expField_inf _).symm)
    (hfrac.trans (F64.fracField_inf _).symm)

theorem F64.negate_of_isInf {p : F64} (h : F64.isInf p = true) : F64.negate p = F64.inf (!F64.neg p) := by
  rw [F64.eq_inf_of_isInf ((F64.isInf_negate p).trans h), F64.neg_negate]

/-- A NaN operand gives the NaN drawn. -/
theorem F64.ops_of_isNaN (nan : F64) {a b : F64} (h : F64.isNaN a = true ∨ F64.isNaN b = true) :
    F64.add nan a b = nan ∧ F64.sub nan a b = nan ∧ F64.mul nan a b = nan ∧ F64.div nan a b = nan := by
  have hor : (F64.isNaN a || F64.isNaN b) = true := Bool.or_eq_true_iff.mpr h
  simp only [F64.add, F64.sub, F64.mul, F64.div, F64.isNaN_negate, hor, if_true, and_self]

/-- An infinity on the left of a finite value. -/
theorem F64.ops_of_isInf_of_isFinite (nan : F64) {a b : F64} (ha : F64.isInf a = true) (hb : F64.isFinite b = true) :
    F64.add nan a b = a ∧ F64.sub nan a b = a ∧
    F64.mul nan a b = (if F64.scaled b = 0 then nan else F64.inf (F64.neg a != F64.neg b)) ∧
    F64.div nan a b = F64.inf (F64.neg a != F64.neg b) := by
  simp [F64.add, F64.sub, F64.mul, F64.div, ha, F64.isNaN_of_isInf ha, F64.isZero_of_isInf ha, F64.isZero_eq b,
    F64.isNaN_of_isFinite hb, F64.isInf_of_isFinite hb]

/-- An infinity on the right of a finite value. -/
theorem F64.ops_of_isFinite_of_isInf (nan : F64) {a b : F64} (ha : F64.isFinite a = true) (hb : F64.isInf b = true) :
    F64.add nan a b = b ∧ F64.sub nan a b = F64.inf (!F64.neg b) ∧
    F64.mul nan a b = (if F64.scaled a = 0 then nan else F64.inf (F64.neg a != F64.neg b)) ∧
    F64.div nan a b = F64.zero (F64.neg a != F64.neg b) := by
  simp [F64.add, F64.sub, F64.mul, F64.div, hb, F64.isNaN_of_isInf hb, F64.isZero_of_isInf hb, F64.isZero_eq a,
    F64.isNaN_of_isFinite ha, F64.isInf_of_isFinite ha, F64.negate_of_isInf hb, F64.isInf_inf,
    F64.isNaN_of_isInf (F64.isInf_inf _)]

/-- Two infinities: infinities of opposite signs have no sum, those of the same sign no difference, and none a quotient. -/
theorem F64.ops_of_isInf_of_isInf (nan : F64) {a b : F64} (ha : F64.isInf a = true) (hb : F64.isInf b = true) :
    F64.add nan a b = (if F64.neg a = F64.neg b then a else nan) ∧
    F64.sub nan a b = (if F64.neg a = F64.neg b then nan else a) ∧
    F64.mul nan a b = F64.inf (F64.neg a != F64.neg b) ∧ F64.div nan a b = nan := by
  simp only [F64.add, F64.sub, F64.mul, F64.div, ha, hb, F64.isNaN_of_isInf ha, F64.isNaN_of_isInf hb,
    F64.isZero_of_isInf ha, F64.isZero_of_isInf hb, F64.isNaN_negate, F64.isInf_negate, F64.neg_negate]
  cases F64.neg a <;> cases F64.neg b <;> simp

/-- A finite value divided by a zero. -/
theorem F64.div_of_scaled_eq_zero (nan : F64) {a b : F64} (ha : F64.isFinite a = true) (hb : F64.isFinite b = true)
    (hz : F64.scaled b = 0) :
    F64.div nan a b = (if F64.scaled a = 0 then nan else F64.inf (F64.neg a != F64.neg b)) := by
  simp [F64.div, F64.isNaN_of_isFinite ha, F64.isNaN_of_isFinite hb, F64.isInf_of_isFinite ha,
    F64.isInf_of_isFinite hb, F64.isZero_eq, hz]

/-- Settles O54, class of operands by class of operands. -/
theorem specialOperandsFollowIeee754 : Obligations.SpecialOperandsFollowIeee754 := fun nan _ _ =>
  ⟨F64.ops_of_isNaN nan, F64.ops_of_isInf_of_isFinite nan, F64.ops_of_isFinite_of_isInf nan,
    F64.ops_of_isInf_of_isInf nan, F64.div_of_scaled_eq_zero nan⟩

/-! ### Integers -/

/-- A positive number up to 2^53, shifted left until its leading bit has weight 2^52 or more. -/
theorem F64.exists_shift_normal {v : Nat} (hpos : 0 < v) (hv : v ≤ 2 ^ 53) :
    ∃ k ≤ 52, 2 ^ 52 ≤ v * 2 ^ k ∧ v * 2 ^ k ≤ 2 ^ 53 := by
  rcases Nat.lt_or_ge v (2 ^ 52) with hlt | hge
  · have hlog : Nat.log2 v < 52 := (Nat.log2_lt hpos.ne').mpr hlt
    refine ⟨52 - Nat.log2 v, by omega, ?_, ?_⟩
    · calc 2 ^ 52 = 2 ^ Nat.log2 v * 2 ^ (52 - Nat.log2 v) := by rw [← Nat.pow_add]; congr 1; omega
        _ ≤ v * 2 ^ (52 - Nat.log2 v) := Nat.mul_le_mul_right _ (Nat.log2_self_le hpos.ne')
    · calc v * 2 ^ (52 - Nat.log2 v)
        _ ≤ 2 ^ (Nat.log2 v + 1) * 2 ^ (52 - Nat.log2 v) := Nat.mul_le_mul_right _ Nat.lt_log2_self.le
        _ = 2 ^ 53 := by rw [← Nat.pow_add]; congr 1; omega
  · exact ⟨0, by omega, by omega, by omega⟩

/-- A whole number up to 2^53, in units of 2^-1074, is a significand of some binade, or 0. -/
theorem F64.exists_significand {v : Nat} (hv : v ≤ 2 ^ 53) :
    ∃ e m, v * 2 ^ 1074 = m * 2 ^ e ∧ m ≤ 2 ^ 53 ∧ (e = 0 ∨ 2 ^ 52 ≤ m) ∧ e ≤ 1074 := by
  rcases Nat.eq_zero_or_pos v with rfl | hpos
  · exact ⟨0, 0, by rw [Nat.zero_mul, Nat.zero_mul], Nat.zero_le _, .inl rfl, Nat.zero_le _⟩
  · obtain ⟨k, hk, hlow, hhigh⟩ := F64.exists_shift_normal hpos hv
    refine ⟨1074 - k, v * 2 ^ k, ?_, hhigh, .inr hlow, by omega⟩
    rw [Nat.mul_assoc, ← Nat.pow_add, Nat.add_sub_cancel' (by omega)]

/-- Every integer up to 2^53 in magnitude is the value of some finite pattern. -/
theorem F64.exists_scaled_eq_int {n : Int} (hn : n.natAbs ≤ 2 ^ 53) :
    ∃ z : F64, F64.isFinite z = true ∧ F64.scaled z = n * 2 ^ 1074 := by
  obtain ⟨e, m, hval, hm, hnorm, he⟩ := F64.exists_significand hn
  have hlow : e * 2 ^ 52 + m < 2047 * 2 ^ 52 := by omega
  refine ⟨F64.ofSignMag (decide (n < 0)) (e * 2 ^ 52 + m), F64.isFinite_ofSignMag _ hlow, ?_⟩
  rw [F64.scaled, F64.neg_ofSignMag, F64.mag_ofSignMag _ hm hnorm hlow, ← hval]
  exact ite_neg_natAbs_mul_two_pow n 1074

/-- Where the exact result is itself the value of a finite pattern, the nearest value is exact. -/
theorem F64.IsNearestEven.scaled_eq {n : Int} {p z : F64} (hp : F64.IsNearestEven n 1 p)
    (hz : F64.isFinite z = true) (hzn : F64.scaled z = n) : F64.scaled p = n := by
  have hle := (hp.2 z hz).1
  rw [hzn] at hle
  omega

/-- Settles O55: such an integer is far below the overflow bound and is the value of a finite pattern, so rounding is exact. -/
theorem integersConvertExactly : Obligations.IntegersConvertExactly := by
  intro n hn
  have hbound : n.natAbs * 2 ^ 1074 < F64.overflowBound * 1 := by
    rw [Nat.mul_one, F64.overflowBound]
    have hpow : 2 ^ 1074 ≤ 2 ^ 2044 := pow_le_pow_right₀ (by decide) (by decide)
    exact Nat.mul_lt_mul_of_lt_of_le (by omega) hpow (by positivity)
  have hnear := F64.round_isNearestEven (decide (n < 0)) Nat.one_pos hbound
  rw [ite_neg_natAbs_mul_two_pow] at hnear
  obtain ⟨z, hz, hzn⟩ := F64.exists_scaled_eq_int hn
  exact ⟨hnear.1, hnear.scaled_eq hz hzn⟩

end Sys2Proof.Machine
end

section
/-! PROOFS. What a command and a step can do, said once: every statement about all steps is a case split on these two relations. -/

namespace Sys2Proof.Machine

/-! ### What a command can do -/

/-- The command's effect on `s`, with the condition under which it has that effect: IllegalCommand for a term that is not legal on
this engine, else the rule of the command itself. -/
inductive CommandEffect (s : State) : Instr → State → Prop
  | illegal (i : Instr) : i.wf s.nch = false → CommandEffect s i s.raiseIllegal
  | nop : CommandEffect s .nop s
  | srst : CommandEffect s .srst s.doReset
  | cvt : CommandEffect s .cvt
      ((s.setRes (resOf32 (q30sat s.oprF64).q)).noteFlags (q30sat s.oprF64).inv (q30sat s.oprF64).sat)
  | ldq (k : Coef) : k.loadable = true → CommandEffect s (.ldq k) { s with q := s.q.set k s.opr32 }
  | ldd (k : Coef) : k.loadable = true → CommandEffect s (.ldd k)
      ({ s with d := s.d.set k s.oprF64, q := s.q.set k (q30sat s.oprF64).q }.noteFlags
        (q30sat s.oprF64).inv (q30sat s.oprF64).sat)
  | rdq (k : Coef) : CommandEffect s (.rdq k) (s.setRes (resOf32 (s.q.get k)))
  | rdd (k : Coef) : CommandEffect s (.rdd k) (s.setRes (s.d.get k))
  | setfc : CommandEffect s .setfc { s with p := { s.p with fc := s.oprF64 } }
  | setq : CommandEffect s .setq { s with p := { s.p with qf := s.oprF64 } }
  | setfs : CommandEffect s .setfs { s with p := { s.p with fs := s.opr32 } }
  | ccalc (d : DCoefs) : d = ccalcCoefs s.drawNaN s.p → CommandEffect s .ccalc
      ({ s with d := d, q := quantize d, nanDraws := s.nanDraws + ccalcOps }.noteFlags (anyInvalid d) (anySaturated d))
  | rdp (p : Param) : CommandEffect s (.rdp p) (s.setRes (s.p.read p))
  | clrch (ch : ChIndex) (c : Channel) : s.channels[ch.toNat]? = some c → CommandEffect s (.clrch ch)
      (s.setChannel ch { c with int := IntTrack.reset, flt := FltTrack.reset })
  | stepi (ch : ChIndex) (imm : Sample) (c : Channel) : s.channels[ch.toNat]? = some c →
      CommandEffect s (.stepi ch imm)
        ((s.setChannel ch { c with int := (intStep c.pol s.q c.int imm).1 }).setRes
          (resOf16 (intStep c.pol s.q c.int imm).2))
  | stepf (ch : ChIndex) (imm : Sample) (c : Channel) (r : FltResult) : s.channels[ch.toNat]? = some c →
      r = fltStep s.drawNaN s.d c.flt imm → CommandEffect s (.stepf ch imm)
        ((((s.setChannel ch { c with flt := r.track }).setRes (resOf16 r.out)).noteFlags r.inv false).spendFltDraws)
  | stepd (ch : ChIndex) (imm : Sample) (c : Channel) (r : FltResult) : s.channels[ch.toNat]? = some c →
      r = fltStep s.drawNaN s.d c.flt imm → CommandEffect s (.stepd ch imm)
        ((((s.setChannel ch { c with int := (intStep c.pol s.q c.int imm).1, flt := r.track }).setRes
          (resOf16 (wrap16 (r.out.toInt - (intStep c.pol s.q c.int imm).2.toInt)))).noteFlags r.inv false).spendFltDraws)
  | rdst (ch : ChIndex) (f : Field) (c : Channel) : s.channels[ch.toNat]? = some c →
      CommandEffect s (.rdst ch f) (s.setRes (c.readField f))
  | wrst (ch : ChIndex) (f : Field) (c : Channel) : s.channels[ch.toNat]? = some c →
      CommandEffect s (.wrst ch f) (s.setChannel ch (c.writeField f s))

/-- A command on a channel has the effect of its body, or is IllegalCommand where the engine lacks the channel. -/
theorem onChannel_effect {i : Instr} {ch : ChIndex} {s t : State} {f : Channel → State}
    (hwf : i.wf s.nch = ChIndex.inRange s.nch ch)
    (hf : ∀ c, s.channels[ch.toNat]? = some c → CommandEffect s i (f c)) (h : onChannel ch s f = .next t) :
    CommandEffect s i t := by
  obtain ⟨c, hc, rfl⟩ | ⟨hnone, rfl⟩ := onChannel_cases h
  · exact hf c hc
  · have hge : s.nch ≤ ch.toNat := List.getElem?_eq_none_iff.mp hnone
    exact .illegal i (hwf.trans (decide_eq_false hge.not_gt))

/-- A load of a coefficient has its effect, or is IllegalCommand where the coefficient has no storage. -/
theorem ite_illegalCommand_effect {i : Instr} {k : Coef} {s t u : State} (hwf : i.wf s.nch = k.loadable)
    (hu : k.loadable = true → CommandEffect s i u)
    (h : (if k.loadable then .next u else illegalCommand s) = Host.Outcome.next t) : CommandEffect s i t := by
  cases hk : k.loadable with
  | true => rw [hk] at h; cases h; exact hu hk
  | false => rw [hk] at h; cases h; exact .illegal i (hwf.trans hk)

/-- Everything `exec` can answer. -/
theorem exec_effect {i : Instr} {s t : State} (h : exec i s = .next t) : CommandEffect s i t := by
  cases i with
  | nop => cases h; exact .nop
  | srst => cases h; exact .srst
  | cvt => cases h; exact .cvt
  | ldq k => exact ite_illegalCommand_effect rfl (.ldq k) h
  | ldd k => exact ite_illegalCommand_effect rfl (.ldd k) h
  | rdq k => cases h; exact .rdq k
  | rdd k => cases h; exact .rdd k
  | setfc => cases h; exact .setfc
  | setq => cases h; exact .setq
  | setfs => cases h; exact .setfs
  | ccalc => cases h; exact .ccalc _ rfl
  | rdp p => cases h; exact .rdp p
  | clrch ch => exact onChannel_effect rfl (.clrch ch) h
  | stepi ch imm => exact onChannel_effect rfl (.stepi ch imm) h
  | stepf ch imm => exact onChannel_effect rfl (fun c hc => .stepf ch imm c _ hc rfl) h
  | stepd ch imm => exact onChannel_effect rfl (fun c hc => .stepd ch imm c _ hc rfl) h
  | rdst ch f => exact onChannel_effect rfl (.rdst ch f) h
  | wrst ch f => exact onChannel_effect rfl (.wrst ch f) h

/-! ### What a step can do -/

/-- The step's effect on `s`, with the event it serves in the terms of Safety.lean. -/
inductive StepEffect (s : State) : State → Prop
  | idle : s.pending = [] → StepEffect s s
  | reset (rest : List HostEvent) : s.serves .reset → StepEffect s (State.doReset { s with pending := rest })
  | read (off : Nat) (rest : List HostEvent) : s.serves (.read off) →
      StepEffect s { s with pending := rest, observed := s.observed ++ [s.readReg (PortReg.ofOffset off)] }
  | writeStatus (w : Word) (rest : List HostEvent) : s.serves (.write 0x04 w) →
      StepEffect s { s with pending := rest, status := s.status.clear w }
  | writeCtrl (w : Word) (rest : List HostEvent) : s.serves (.write 0x08 w) →
      StepEffect s { s with pending := rest, channels := writePolicies s.channels w }
  | writeOprLo (w : Word) (rest : List HostEvent) : s.serves (.write 0x10 w) →
      StepEffect s { s with pending := rest, opr := s.opr.extractLsb' 32 32 ++ w }
  | writeOprHi (w : Word) (rest : List HostEvent) : s.serves (.write 0x14 w) →
      StepEffect s { s with pending := rest, opr := w ++ s.opr.extractLsb' 0 32 }
  | writeIgnored (off : Nat) (w : Word) (rest : List HostEvent) : s.serves (.write off w) →
      PortReg.ofOffset off ∈ [.id, .resLo, .resHi, .reserved] → StepEffect s { s with pending := rest }
  | command (i : Instr) (rest : List HostEvent) (t : State) : s.runs i →
      CommandEffect { s with pending := rest } i t → StepEffect s t
  | illegalWord (w : Word) (rest : List HostEvent) : s.serves (.write 0x0C w) → decode s.nch w = none →
      StepEffect s (State.raiseIllegal { s with pending := rest })

/-- Only the reserved words share a register: any other register has one offset (R52). -/
theorem PortReg.eq_offset_of_ofOffset {off : Nat} {r : PortReg} (h : PortReg.ofOffset off = r) (hr : r ≠ .reserved) :
    off = r.offset := by
  unfold PortReg.ofOffset at h
  split at h
  case h_9 => exact absurd h.symm hr
  all_goals subst h; rfl

/-- A write of a register other than CMD has the effect of the register at its offset (R52). -/
theorem writeReg_effect {s : State} {off : Nat} {w : Word} {rest : List HostEvent} (hs : s.serves (.write off w))
    (hcmd : PortReg.ofOffset off ≠ .cmd) :
    StepEffect s (State.writeReg { s with pending := rest } w (PortReg.ofOffset off)) := by
  have hoff := PortReg.eq_offset_of_ofOffset (off := off) rfl
  generalize hr : PortReg.ofOffset off = r at hcmd hoff
  cases r with
  | status => obtain rfl := hoff nofun; exact .writeStatus w rest hs
  | ctrl => obtain rfl := hoff nofun; exact .writeCtrl w rest hs
  | oprLo => obtain rfl := hoff nofun; exact .writeOprLo w rest hs
  | oprHi => obtain rfl := hoff nofun; exact .writeOprHi w rest hs
  | cmd => exact absurd rfl hcmd
  | id | resLo | resHi | reserved => exact .writeIgnored off w rest hs (by rw [hr]; decide)

/-- Everything `step` can answer. -/
theorem step_effect {s t : State} (h : step s = .next t) : StepEffect s t := by
  obtain ⟨hidle, rfl⟩ | ⟨e, rest, hpending, -, hserved⟩ := step_cases h
  · exact .idle hidle
  · have hs : s.serves e := ⟨rest, hpending⟩
    obtain ⟨rfl, rfl⟩ | ⟨off, rfl, rfl⟩ | ⟨off, w, rfl, hcmd, rfl⟩ | ⟨w, i, rfl, hdecode, hexec⟩ | ⟨w, rfl, hdecode, rfl⟩ :=
      hserved
    · exact .reset rest hs
    · exact .read off rest hs
    · exact writeReg_effect hs hcmd
    · exact .command i rest t ⟨w, hs, hdecode⟩ (exec_effect hexec)
    · exact .illegalWord w rest hs hdecode

end Sys2Proof.Machine
end

section
/-! PROOFS. The state after reset (R35, R220) and the two relations every step keeps: between the forms of the coefficients (R26),
and between the float input histories and the samples (R30). -/

namespace Sys2Proof.Machine

/-! ### Reset -/

/-- Reset sets every element of R35, whatever the state before it (R220). -/
theorem State.doReset_isReset (s : State) : s.doReset.IsReset := by
  refine ⟨rfl, rfl, rfl, rfl, rfl, rfl, rfl, rfl, rfl, rfl, rfl, rfl, rfl, rfl, rfl, rfl, fun c hc => ?_⟩
  obtain rfl := List.eq_of_mem_replicate hc
  exact ⟨rfl, rfl, rfl, rfl, rfl, rfl, rfl, rfl, rfl, rfl⟩

/-- Settles O1: the reset state is what reset makes of an engine with two channels. -/
theorem resetStateHasTheSpecifiedValues : Obligations.ResetStateHasTheSpecifiedValues :=
  ⟨State.reset.doReset_isReset, rfl⟩

/-! ### The Q30 and the binary64 forms agree -/

/-- The conversion of +0.0 is 0. -/
theorem quantize_reset : quantize DCoefs.reset = QCoefs.reset := by decide +kernel

/-- Converting after a load is loading the converted value. -/
theorem quantize_set (d : DCoefs) (k : Coef) (v : F64) : quantize (d.set k v) = (quantize d).set k (q30sat v).q := by
  cases k <;> rfl

theorem State.coherent_doReset (s : State) : s.doReset.Coherent := quantize_reset.symm

/-- LDD and CCALC write both forms together; LDQ alone writes one of them (R26). -/
theorem CommandEffect.coherent {s t : State} {i : Instr} (h : CommandEffect s i t) (hs : s.Coherent)
    (hldq : ∀ k, i ≠ .ldq k) : t.Coherent := by
  cases h with
  | srst => exact s.coherent_doReset
  | ldq k _ => exact absurd rfl (hldq k)
  | ldd k _ =>
    calc s.q.set k (q30sat s.oprF64).q = (quantize s.d).set k (q30sat s.oprF64).q := by rw [hs]
      _ = quantize (s.d.set k s.oprF64) := (quantize_set s.d k s.oprF64).symm
  | ccalc d _ => exact rfl
  | _ => exact hs

/-- Settles O29: only commands and resets write a coefficient, and of these LDQ alone writes one form without the other. -/
theorem formsAgreeUntilAnLdq : Obligations.FormsAgreeUntilAnLdq := by
  intro s t hs hstep hldq
  cases step_effect hstep with
  | reset rest _ => exact State.coherent_doReset _
  | command i rest _ hruns heff => exact heff.coherent hs fun k hi => hldq k (hi ▸ hruns)
  | _ => exact hs

/-! ### The float input histories hold samples -/

/-- Every slot's float input history is made of samples. -/
def InputsAreSamples (cs : List Channel) : Prop := ∀ c ∈ cs, c.flt.inputsAreSamples

/-- +0.0 is the sample 0, converted. -/
theorem FltTrack.inputsAreSamples_reset : FltTrack.reset.inputsAreSamples :=
  have hzero : (0 : F64) = F64.ofInt (0 : Sample).toInt := by decide +kernel
  ⟨0, 0, hzero, hzero⟩

/-- A step puts its sample in xf1 and moves the one before to xf2 (R161). -/
theorem FltTrack.inputsAreSamples_fltStep {t : FltTrack} (ht : t.inputsAreSamples) (nan : Nat → F64) (d : DCoefs)
    (imm : Sample) : (fltStep nan d t imm).track.inputsAreSamples := by
  obtain ⟨x, -, hx, -⟩ := ht
  exact ⟨imm, x, fltStep_xf1 nan d t imm, (fltStep_xf2 nan d t imm).trans hx⟩

/-- WRST leaves the float inputs alone unless it names one of them (R184). -/
theorem Channel.inputsAreSamples_writeField {c : Channel} (hc : c.flt.inputsAreSamples) {f : Field} (s : State)
    (h1 : f ≠ .xf1) (h2 : f ≠ .xf2) : (c.writeField f s).flt.inputsAreSamples := by
  cases f with
  | xf1 => exact absurd rfl h1
  | xf2 => exact absurd rfl h2
  | _ => exact hc

theorem InputsAreSamples.replicate_reset (n : Nat) : InputsAreSamples (List.replicate n Channel.reset) := by
  intro c hc
  obtain rfl := List.eq_of_mem_replicate hc
  exact FltTrack.inputsAreSamples_reset

/-- Replacing one slot keeps the property if it passes from the old slot to the new one. -/
theorem InputsAreSamples.set {cs : List Channel} (hcs : InputsAreSamples cs) {n : Nat} {c c' : Channel}
    (hc : cs[n]? = some c) (hc' : c.flt.inputsAreSamples → c'.flt.inputsAreSamples) : InputsAreSamples (cs.set n c') := by
  intro e he
  obtain hmem | rfl := List.mem_or_eq_of_mem_set he
  · exact hcs e hmem
  · exact hc' (hcs c (List.mem_of_getElem? hc))

/-- A write of CTRL changes no float history (R56). -/
theorem InputsAreSamples.writePolicies {cs : List Channel} (hcs : InputsAreSamples cs) (w : Word) :
    InputsAreSamples (writePolicies cs w) := by
  intro c hc
  obtain ⟨n, hn⟩ := List.mem_iff_getElem?.mp hc
  rw [writePolicies_getElem?] at hn
  obtain ⟨c₀, hc₀, rfl⟩ := Option.map_eq_some_iff.mp hn
  exact hcs c₀ (List.mem_of_getElem? hc₀)

/-- Only WRST can put a float input in a slot that is no sample. -/
theorem CommandEffect.inputsAreSamples {s t : State} {i : Instr} (h : CommandEffect s i t)
    (hs : InputsAreSamples s.channels) (hwrst : ∀ ch, i ≠ .wrst ch .xf1 ∧ i ≠ .wrst ch .xf2) :
    InputsAreSamples t.channels := by
  cases h with
  | srst => exact .replicate_reset _
  | clrch ch c hc => exact hs.set hc fun _ => FltTrack.inputsAreSamples_reset
  | stepi ch imm c hc => exact hs.set hc id
  | stepf ch imm c r hc hr | stepd ch imm c r hc hr =>
    subst hr
    exact hs.set hc fun hflt => FltTrack.inputsAreSamples_fltStep hflt _ _ imm
  | wrst ch f c hc =>
    obtain ⟨h1, h2⟩ := hwrst ch
    exact hs.set hc fun hflt =>
      Channel.inputsAreSamples_writeField hflt s (fun hf => h1 (hf ▸ rfl)) (fun hf => h2 (hf ▸ rfl))
  | _ => exact hs

/-- Settles O30: resets and CLRCH write 0, STEPF and STEPD write their sample, and nothing else but WRST writes a float input. -/
theorem floatInputsStaySamples : Obligations.FloatInputsStaySamples := by
  intro s t hs hstep hwrst
  change InputsAreSamples t.channels
  cases step_effect hstep with
  | reset rest _ => exact .replicate_reset _
  | writeCtrl w rest _ => exact InputsAreSamples.writePolicies hs w
  | command i rest _ hruns heff =>
    refine heff.inputsAreSamples hs fun ch => ?_
    obtain ⟨h1, h2⟩ := hwrst ch
    exact ⟨fun hi => h1 (hi ▸ hruns), fun hi => h2 (hi ▸ hruns)⟩
  | _ => exact hs

/-- Settles O23: two channels, and reset makes both relations hold. -/
theorem resetMeetsTheInvariants : Obligations.ResetMeetsTheInvariants :=
  ⟨.inr rfl, State.reset.coherent_doReset, InputsAreSamples.replicate_reset 2⟩

end Sys2Proof.Machine
end

section
/-! PROOFS. Which commands and writes may change each register (R22 to R28). -/

namespace Sys2Proof.Machine

/-! ### STATUS -/

/-- Every flag that is set in `f` is set in `g`. -/
def Status.KeptIn (f g : Status) : Prop :=
  (f.ill = true → g.ill = true) ∧ (f.inv = true → g.inv = true) ∧ (f.sat = true → g.sat = true)

theorem Status.keptIn_refl (f : Status) : f.KeptIn f := ⟨id, id, id⟩

theorem Status.keptIn_ill (f : Status) : f.KeptIn { f with ill := true } := ⟨fun _ => rfl, id, id⟩

/-- A conversion's report is ORed into the flags (R202). -/
theorem Status.keptIn_note (f : Status) (inv sat : Bool) : f.KeptIn (f.note inv sat) :=
  ⟨id, Bool.or_eq_true_iff.mpr ∘ .inl, Bool.or_eq_true_iff.mpr ∘ .inl⟩

/-- No command but SRST clears a flag. -/
theorem CommandEffect.status_keptIn {s t : State} {i : Instr} (h : CommandEffect s i t) :
    i = .srst ∨ s.status.KeptIn t.status := by
  cases h with
  | srst => exact .inl rfl
  | illegal => exact .inr s.status.keptIn_ill
  | cvt | ldd | ccalc | stepf | stepd => exact .inr (s.status.keptIn_note _ _)
  | _ => exact .inr s.status.keptIn_refl

/-- A step clears flags only as the host asks: a write of STATUS, the reset input, SRST. -/
theorem StepEffect.status_cases {s t : State} (h : StepEffect s t) :
    (∃ w, s.serves (.write 0x04 w) ∧ t.status = s.status.clear w) ∨ s.serves .reset ∨ s.runs .srst ∨
      s.status.KeptIn t.status := by
  cases h with
  | reset rest hserves => exact .inr (.inl hserves)
  | writeStatus w rest hserves => exact .inl ⟨w, hserves, rfl⟩
  | illegalWord => exact .inr (.inr (.inr s.status.keptIn_ill))
  | command i rest _ hruns heff =>
    obtain rfl | hkept := heff.status_keptIn
    · exact .inr (.inr (.inl hruns))
    · exact .inr (.inr (.inr hkept))
  | _ => exact .inr (.inr (.inr s.status.keptIn_refl))

/-- Settles O24: where the step is none of the three, the flags are kept; a write of STATUS clears the flags at its 1 bits. -/
theorem flagsAreClearedOnlyByTheHost : Obligations.FlagsAreClearedOnlyByTheHost := by
  intro s t hstep
  obtain ⟨w, hserves, hclear⟩ | hreset | hsrst | ⟨hill, hinv, hsat⟩ := (step_effect hstep).status_cases
  · rw [hclear, Status.clear_ill, Status.clear_inv, Status.clear_sat]
    exact ⟨fun h h' => .inl ⟨w, hserves, by simpa [h] using h'⟩, fun h h' => .inl ⟨w, hserves, by simpa [h] using h'⟩,
      fun h h' => .inl ⟨w, hserves, by simpa [h] using h'⟩⟩
  · exact ⟨fun _ _ => .inr (.inl hreset), fun _ _ => .inr (.inl hreset), fun _ _ => .inr (.inl hreset)⟩
  · exact ⟨fun _ _ => .inr (.inr hsrst), fun _ _ => .inr (.inr hsrst), fun _ _ => .inr (.inr hsrst)⟩
  · exact ⟨fun h h' => absurd (hill h) (by simp [h']), fun h h' => absurd (hinv h) (by simp [h']),
      fun h h' => absurd (hsat h) (by simp [h'])⟩

/-! ### RES -/

/-- The commands R25 lists, and SRST, are the only ones that write RES. -/
theorem CommandEffect.res_cases {s t : State} {i : Instr} (h : CommandEffect s i t) :
    i.writesRes = true ∨ i = .srst ∨ t.res = s.res := by
  cases h with
  | srst => exact .inr (.inl rfl)
  | cvt | rdq | rdd | rdp | stepi | stepf | stepd | rdst => exact .inl rfl
  | _ => exact .inr (.inr rfl)

/-- Settles O26: RES is no register that the host writes, so beside a reset only commands change it. -/
theorem resIsWrittenOnlyByTheListedCommands : Obligations.ResIsWrittenOnlyByTheListedCommands := by
  intro s t hstep hne
  cases step_effect hstep with
  | reset rest hserves => exact .inr (.inl hserves)
  | command i rest _ hruns heff =>
    obtain hwrites | rfl | hres := heff.res_cases
    · exact .inl ⟨i, hruns, hwrites⟩
    · exact .inr (.inr hruns)
    · exact absurd hres hne
  | _ => exact absurd rfl hne

/-! ### The registers that every command but SRST leaves, and the writers of the others -/

/-- WRST has no field for the policy (R87, R184). -/
theorem Channel.writeField_pol (c : Channel) (f : Field) (s : State) : (c.writeField f s).pol = c.pol := by
  cases f <;> rfl

section
variable {s t : State} {i : Instr} (h : CommandEffect s i t) (hi : i ≠ .srst)
include h hi

theorem CommandEffect.opr_eq : t.opr = s.opr := by
  cases h with
  | srst => exact absurd rfl hi
  | _ => rfl

theorem CommandEffect.q_cases : ((∃ k, i = .ldq k ∨ i = .ldd k) ∨ i = .ccalc) ∨ t.q = s.q := by
  cases h with
  | srst => exact absurd rfl hi
  | ldq k _ => exact .inl (.inl ⟨k, .inl rfl⟩)
  | ldd k _ => exact .inl (.inl ⟨k, .inr rfl⟩)
  | ccalc => exact .inl (.inr rfl)
  | _ => exact .inr rfl

theorem CommandEffect.d_cases : ((∃ k, i = .ldd k) ∨ i = .ccalc) ∨ t.d = s.d := by
  cases h with
  | srst => exact absurd rfl hi
  | ldd k _ => exact .inl (.inl ⟨k, rfl⟩)
  | ccalc => exact .inl (.inr rfl)
  | _ => exact .inr rfl

theorem CommandEffect.p_cases : (i = .setfc ∨ i = .setq ∨ i = .setfs) ∨ t.p = s.p := by
  cases h with
  | srst => exact absurd rfl hi
  | setfc => exact .inl (.inl rfl)
  | setq => exact .inl (.inr (.inl rfl))
  | setfs => exact .inl (.inr (.inr rfl))
  | _ => exact .inr rfl

/-- A command other than SRST leaves the channels, or replaces the slot of the channel it names and keeps its policy (R28). -/
theorem CommandEffect.channels_cases : t.channels = s.channels ∨
    ∃ ch c c', i.channel? = some ch ∧ s.channels[ch.toNat]? = some c ∧
      t.channels = s.channels.set ch.toNat c' ∧ c'.pol = c.pol := by
  cases h with
  | srst => exact absurd rfl hi
  | clrch ch c hc => exact .inr ⟨ch, c, _, rfl, hc, rfl, rfl⟩
  | stepi ch imm c hc => exact .inr ⟨ch, c, _, rfl, hc, rfl, rfl⟩
  | stepf ch imm c r hc _ | stepd ch imm c r hc _ => exact .inr ⟨ch, c, _, rfl, hc, rfl, rfl⟩
  | wrst ch f c hc => exact .inr ⟨ch, c, _, rfl, hc, rfl, c.writeField_pol f s⟩
  | _ => exact .inl rfl

/-- No command but SRST changes a policy (R23). -/
theorem CommandEffect.pols_eq : t.channels.map Channel.pol = s.channels.map Channel.pol := by
  obtain heq | ⟨ch, c, c', -, hc, heq, hpol⟩ := h.channels_cases hi
  · rw [heq]
  · obtain ⟨hlt, rfl⟩ := List.getElem?_eq_some_iff.mp hc
    rw [heq, List.map_set, hpol, ← List.map_set, List.set_getElem_self]

end

/-- The step that runs a command is that command, executed on the state without the event (R57). -/
theorem step_of_runs {s : State} {i : Instr} (h : s.runs i) :
    ∃ rest, step s = exec i { s with pending := rest } := by
  obtain ⟨w, ⟨rest, hpending⟩, hdecode⟩ := h
  refine ⟨rest, ?_⟩
  rw [step_of_pending hpending]
  change runWord w { s with pending := rest } = _
  have hdecode' : decode (State.nch { s with pending := rest }) w = some i := hdecode
  rw [runWord, hdecode']

/-- Settles O28: the command replaces at most the slot it names. -/
theorem commandsLeaveOtherChannels : Obligations.CommandsLeaveOtherChannels := by
  intro s t i hruns hi hstep
  refine ⟨step_nch hstep, fun d hd => ?_⟩
  obtain ⟨rest, hexec⟩ := step_of_runs hruns
  obtain heq | ⟨ch, c, c', hch, -, heq, -⟩ := (exec_effect (hexec.symm.trans hstep)).channels_cases hi
  · rw [heq]
  · rw [heq, List.getElem?_set_ne (hd ch hch).symm]

/-- Settles O27, event by event: the host's writes of OPR and CTRL each change their own register, and a command changes those it
is listed for. -/
theorem eachRegisterHasItsWriters : Obligations.EachRegisterHasItsWriters := by
  intro s t hstep hreset hsrst
  cases step_effect hstep with
  | reset rest hserves => exact absurd hserves hreset
  | writeCtrl w rest hserves =>
    exact ⟨absurd rfl, fun _ => ⟨w, hserves⟩, absurd rfl, absurd rfl, absurd rfl⟩
  | writeOprLo w rest hserves =>
    exact ⟨fun _ => ⟨w, .inl hserves⟩, absurd rfl, absurd rfl, absurd rfl, absurd rfl⟩
  | writeOprHi w rest hserves =>
    exact ⟨fun _ => ⟨w, .inr hserves⟩, absurd rfl, absurd rfl, absurd rfl, absurd rfl⟩
  | command i rest _ hruns heff =>
    have hi : i ≠ .srst := fun hi => hsrst (hi ▸ hruns)
    refine ⟨absurd (heff.opr_eq hi), absurd (heff.pols_eq hi), fun hq => ?_, fun hd => ?_, fun hp => ?_⟩
    · obtain ⟨k, rfl | rfl⟩ | rfl := (heff.q_cases hi).resolve_right hq
      · exact .inl ⟨k, .inl hruns⟩
      · exact .inl ⟨k, .inr hruns⟩
      · exact .inr hruns
    · obtain ⟨k, rfl⟩ | rfl := (heff.d_cases hi).resolve_right hd
      · exact .inl ⟨k, hruns⟩
      · exact .inr hruns
    · obtain rfl | rfl | rfl := (heff.p_cases hi).resolve_right hp
      · exact .inl hruns
      · exact .inr (.inl hruns)
      · exact .inr (.inr hruns)
  | _ => exact ⟨absurd rfl, absurd rfl, absurd rfl, absurd rfl, absurd rfl⟩

end Sys2Proof.Machine
end

section
/-! PROOFS. The rules of the register port, one per kind of access (R50 to R59, R63). -/

namespace Sys2Proof.Machine

/-! ### The registers of the window (R52) -/

/-- What a register reads does not depend on the events to come or on what was read before (R54). -/
theorem State.readReg_hostSide (s : State) (p : List HostEvent) (o : List Word) (r : PortReg) :
    State.readReg { s with pending := p, observed := o } r = s.readReg r := by
  cases r <;> rfl

/-- From 0x20 on every word is reserved. -/
theorem PortReg.ofOffset_of_ge {off : Nat} (h : 0x20 ≤ off) : PortReg.ofOffset off = .reserved := by
  unfold PortReg.ofOffset
  split
  case h_9 => rfl
  all_goals omega

/-- ID, RES and the reserved words ignore writes (R59). -/
theorem State.writeReg_of_readOnly (s : State) (w : Word) {r : PortReg} (h : r ∈ [.id, .resLo, .resHi, .reserved]) :
    s.writeReg w r = s := by
  cases r with
  | id | resLo | resHi | reserved => rfl
  | status | ctrl | cmd | oprLo | oprHi => exact absurd h (by decide)

/-- STATUS reads {29'b0, SAT, INV, ILL}. -/
theorem Status.word_getLsbD (f : Status) : f.word.getLsbD 0 = f.ill ∧ f.word.getLsbD 1 = f.inv ∧
    f.word.getLsbD 2 = f.sat ∧ ∀ b, 3 ≤ b → f.word.getLsbD b = false := by
  have hlow : f.word.getLsbD 0 = f.ill ∧ f.word.getLsbD 1 = f.inv ∧ f.word.getLsbD 2 = f.sat := by
    obtain ⟨ill, inv, sat⟩ := f
    revert ill inv sat
    decide
  obtain ⟨hill, hinv, hsat⟩ := hlow
  refine ⟨hill, hinv, hsat, fun b hb => Nat.testBit_lt_two_pow ?_⟩
  calc f.word.toNat < 2 ^ 3 := f.word_toNat_lt
    _ ≤ 2 ^ b := Nat.pow_le_pow_right (by decide) hb

/-- Bit b of CTRL is the policy of channel b, 1 being RoundAndReset (R23). -/
theorem ctrlWord_getLsbD (cs : List Channel) {b : Nat} (hb : b < 32) :
    (ctrlWord cs).getLsbD b = true ↔ ∃ c, cs[b]? = some c ∧ c.pol = .roundAndReset := by
  rw [ctrlWord, BitVec.getLsbD_ofNat, policyBits_testBit]
  cases cs[b]? <;> simp [hb]

/-! ### The accesses the port refuses (R59, R63) -/

theorem offsetRefusal_of_ge {off : Nat} (h : 0x40 ≤ off) : offsetRefusal off = some .outsideWindow := if_pos h

theorem exists_offsetRefusal_of_misaligned {off : Nat} (h : off % 4 ≠ 0) : ∃ r, offsetRefusal off = some r :=
  Option.ne_none_iff_exists'.mp fun hnone => h ((offsetRefusal_eq_none off).mp hnone).2

section
variable {s : State} {off : Nat} {rest : List HostEvent} {r : Refusal} (hoff : offsetRefusal off = some r)
include hoff

theorem step_read_of_offsetRefusal (hp : s.pending = .read off :: rest) : step s = .refused r := by
  rw [step_of_pending hp, portStep, portRead, hoff]

theorem step_write_of_offsetRefusal {w : Word} (hp : s.pending = .write off w :: rest) : step s = .refused r := by
  rw [step_of_pending hp, portStep, portWrite, hoff]

end

/-! ### The accesses the port has -/

section
variable {off : Nat} (hoff : off < 0x40 ∧ off % 4 = 0)
include hoff

/-- A read observes the register's value and does nothing else (R54). -/
theorem portRead_of_onPort (s : State) :
    portRead off s = .next { s with observed := s.observed ++ [s.readReg (PortReg.ofOffset off)] } := by
  rw [portRead, (offsetRefusal_eq_none off).mpr hoff]

/-- A write to a register other than CMD has the register's write effect (R52). -/
theorem portWrite_of_ne_cmd (hcmd : PortReg.ofOffset off ≠ .cmd) (w : Word) (s : State) :
    portWrite off w s = .next (s.writeReg w (PortReg.ofOffset off)) := by
  rw [portWrite, (offsetRefusal_eq_none off).mpr hoff]
  generalize PortReg.ofOffset off = r at hcmd
  cases r with
  | cmd => exact absurd rfl hcmd
  | _ => rfl

/-- A write to CMD runs its word (R57). -/
theorem portWrite_of_cmd (hcmd : PortReg.ofOffset off = .cmd) (w : Word) (s : State) :
    portWrite off w s = runWord w s := by
  rw [portWrite, (offsetRefusal_eq_none off).mpr hoff, hcmd]

variable {s : State} {rest : List HostEvent}

theorem step_read (hp : s.pending = .read off :: rest) :
    step s = .next { s with pending := rest, observed := s.observed ++ [s.readReg (PortReg.ofOffset off)] } := by
  rw [step_of_pending hp, portStep, portRead_of_onPort hoff, State.readReg_hostSide]

theorem step_write (hcmd : PortReg.ofOffset off ≠ .cmd) {w : Word} (hp : s.pending = .write off w :: rest) :
    step s = .next (State.writeReg { s with pending := rest } w (PortReg.ofOffset off)) := by
  rw [step_of_pending hp, portStep, portWrite_of_ne_cmd hoff hcmd]

end

/-- A sequence of reads observes the registers' values, each that of the state before the sequence (R54). -/
theorem runEvents_reads {offs : List Nat} (hoffs : ∀ o ∈ offs, o < 0x40 ∧ o % 4 = 0) (s : State) :
    runEvents (offs.map .read) s
      = .next { s with observed := s.observed ++ offs.map fun o => s.readReg (PortReg.ofOffset o) } := by
  induction offs generalizing s with
  | nil => simp [runEvents]
  | cons off offs ih =>
    obtain ⟨hoff, hoffs⟩ := List.forall_mem_cons.mp hoffs
    rw [List.map_cons, runEvents, portStep, portRead_of_onPort hoff]
    simp only [ih hoffs, State.readReg_hostSide, List.append_assoc, List.singleton_append, List.map_cons]

/-! ### The port's statements -/

/-- Settles O9: the value is the register's at the offset, and no read changes what a register reads. -/
theorem readsReturnTheTableValueAndChangeNothing : Obligations.ReadsReturnTheTableValueAndChangeNothing := by
  intro s off rest hlt hmod
  refine ⟨s.readReg (PortReg.ofOffset off), step_read ⟨hlt, hmod⟩, fun offs hoffs => ?_,
    ?_, ?_, ?_, ?_, ?_, ?_, ?_, ?_, ?_⟩
  · have hall : ∀ o ∈ off :: (offs ++ [off]), o < 0x40 ∧ o % 4 = 0 := by
      simpa [or_imp, forall_and, hlt, hmod] using hoffs
    exact ⟨offs.map fun o => s.readReg (PortReg.ofOffset o), by simpa using runEvents_reads hall s⟩
  · rintro rfl; rfl
  · rintro rfl; exact s.status.word_getLsbD
  · rintro rfl; exact fun b hb => ctrlWord_getLsbD s.channels hb
  · rintro rfl; rfl
  · rintro rfl; rfl
  · rintro rfl; rfl
  · rintro rfl; rfl
  · rintro rfl; rfl
  · intro hge; rw [PortReg.ofOffset_of_ge hge]; rfl

/-- Settles O3: a write to CMD runs its word, and the events to come have no part in its decoding. -/
theorem stepRunsTheDecodedCommand : Obligations.StepRunsTheDecodedCommand := by
  intro s w rest i hp hdecode
  have hdecode' : decode (State.nch { s with pending := rest }) w = some i := hdecode
  rw [step_of_pending hp, portStep, portWrite_of_cmd (by decide) rfl, runWord, hdecode']

/-- Settles O8: a misaligned offset has a refusal, and an access of another width has no other outcome. -/
theorem accessesThePortLacksAreRefused : Obligations.AccessesThePortLacksAreRefused := by
  intro s rest off
  refine ⟨fun hoff hp => ?_, fun hoff w hp => ?_, fun width hp => ⟨.accessWidth, step_of_pending hp⟩⟩
  · obtain ⟨r, hr⟩ := exists_offsetRefusal_of_misaligned hoff
    exact ⟨r, step_read_of_offsetRefusal hr hp⟩
  · obtain ⟨r, hr⟩ := exists_offsetRefusal_of_misaligned hoff
    exact ⟨r, step_write_of_offsetRefusal hr hp⟩

/-- Settles O10, flag by flag. -/
theorem statusWriteClearsOnes : Obligations.StatusWriteClearsOnes := by
  intro s w rest hp
  refine ⟨s.status.clear w, step_write (by decide) (by decide) hp, ?_, ?_, ?_⟩
  · rw [Status.clear_ill, Bool.and_eq_true, Bool.not_eq_true']
  · rw [Status.clear_inv, Bool.and_eq_true, Bool.not_eq_true']
  · rw [Status.clear_sat, Bool.and_eq_true, Bool.not_eq_true']

/-- The two spellings of a policy bit's meaning (R23). -/
theorem CarryPolicy.ofBit_eq_ite (b : Bool) : CarryPolicy.ofBit b = if b then .roundAndReset else .carryRemainder := by
  cases b <;> rfl

/-- Settles O11: the write of CTRL goes channel by channel. -/
theorem ctrlWriteSetsEveryPolicy : Obligations.CtrlWriteSetsEveryPolicy := by
  intro s w rest hp
  refine ⟨writePolicies s.channels w, step_write (by decide) (by decide) hp, writePolicies_length _ w, fun c old hc => ?_⟩
  rw [writePolicies_getElem?, hc, Option.map_some, CarryPolicy.ofBit_eq_ite]

/-- Settles O12: OPR is its two halves, side by side, and the write replaces one of them. -/
theorem oprHalvesAreWrittenAlone : Obligations.OprHalvesAreWrittenAlone := by
  intro s w rest
  refine ⟨fun hp => ⟨s.opr.extractLsb' 32 32 ++ w, step_write (by decide) (by decide) hp, ?_, ?_⟩,
    fun hp => ⟨w ++ s.opr.extractLsb' 0 32, step_write (by decide) (by decide) hp, ?_, ?_⟩⟩
  · exact BitVec.extractLsb'_append_eq_right
  · exact BitVec.extractLsb'_append_eq_left
  · exact BitVec.extractLsb'_append_eq_left
  · exact BitVec.extractLsb'_append_eq_right

/-- Settles O13: the offsets named are those of registers that ignore writes, and outside the window the port refuses first of all
for the window. -/
theorem ignoredAndOutsideAccesses : Obligations.IgnoredAndOutsideAccesses := by
  intro s off rest
  refine ⟨fun w hoff hp => ?_, fun ⟨hge, hon⟩ hp => ?_,
    fun hge hp => step_read_of_offsetRefusal (offsetRefusal_of_ge hge) hp,
    fun hge w hp => step_write_of_offsetRefusal (offsetRefusal_of_ge hge) hp⟩
  · have hreg : PortReg.ofOffset off ∈ [.id, .resLo, .resHi, .reserved] := by
      obtain rfl | rfl | rfl | ⟨hge, -⟩ := hoff
      · decide
      · decide
      · decide
      · rw [PortReg.ofOffset_of_ge hge]; decide
    have hcmd : PortReg.ofOffset off ≠ .cmd := fun h => absurd (h ▸ hreg) (by decide)
    rw [step_write (by omega) hcmd hp, State.writeReg_of_readOnly _ w hreg]
  · rw [step_read hon hp, PortReg.ofOffset_of_ge hge]
    rfl

end Sys2Proof.Machine
end

section
/-! PROOFS. The bytes of the window, and where the host sees them (R62, R64). -/

namespace Sys2Proof.Machine

/-- A byte of the window is a byte of the word at the multiple of 4 below it, little-endian. -/
theorem State.windowByte_of_word (s : State) {base j : Nat} (hbase : base < 0x40 ∧ base % 4 = 0) (hj : j < 4) :
    s.windowByte (base + j) = some ((s.readReg (PortReg.ofOffset base)).extractLsb' (8 * j) 8) := by
  obtain ⟨hlt, hmod⟩ := hbase
  have hword : (base + j) / 4 * 4 = base := by omega
  have hbyte : (base + j) % 4 = j := by omega
  rw [windowByte, if_pos (by omega), hword, hbyte]

/-- A slice of the upper half of a double word is one of the double word. -/
theorem extractLsb'_upperHalf (v : DWord) {n len : Nat} (h : n + len ≤ 32) :
    (v.extractLsb' 32 32).extractLsb' n len = v.extractLsb' (32 + n) len := by
  apply BitVec.eq_of_getLsbD_eq
  intro b hb
  have hin : n + b < 32 := by omega
  simp only [BitVec.getLsbD_extractLsb', hb, hin, decide_true, Bool.true_and, Nat.add_assoc]

/-- Two words of the window that hold the halves of `v`, the low one first, are the bytes of `v`, little-endian. -/
theorem State.windowByte_of_halves (s : State) (v : DWord) {base i : Nat} (hbase : base < 0x3C ∧ base % 4 = 0) (hi : i < 8)
    (hlo : s.readReg (PortReg.ofOffset base) = v.extractLsb' 0 32)
    (hhi : s.readReg (PortReg.ofOffset (base + 4)) = v.extractLsb' 32 32) :
    s.windowByte (base + i) = some (v.extractLsb' (8 * i) 8) := by
  by_cases hlow : i < 4
  · rw [s.windowByte_of_word (by omega) hlow, hlo, BitVec.extractLsb'_extractLsb'_of_le (by omega)]
  · obtain ⟨j, rfl⟩ := Nat.exists_eq_add_of_le (Nat.le_of_not_lt hlow)
    rw [← Nat.add_assoc, s.windowByte_of_word (by omega) (by omega), hhi, extractLsb'_upperHalf v (by omega), Nat.mul_add]

theorem windowOffset_base_add {off : Nat} (h : off < 0x40) : windowOffset (Config.bqeBase + off) = some off := by
  rw [windowOffset, if_pos (by omega), Nat.add_sub_cancel_left]

theorem windowOffset_of_outside {addr : Nat} (h : addr < Config.bqeBase ∨ Config.bqeBase + 0x40 ≤ addr) :
    windowOffset addr = none :=
  if_neg (by omega)

/-- Settles O14: OPR and RES each lie in two words, halves in order, and the window lies at BQE_BASE. -/
theorem windowBytesAreLittleEndian : Obligations.WindowBytesAreLittleEndian := by
  intro s
  refine ⟨fun i hi => ⟨s.windowByte_of_halves s.opr (by decide) hi rfl rfl,
      s.windowByte_of_halves s.res (by decide) hi rfl rfl⟩,
    fun off hoff => ?_, fun addr haddr => ?_⟩
  · rw [State.hostByte, windowOffset_base_add hoff, Option.bind_some]
  · rw [State.hostByte, windowOffset_of_outside haddr, Option.bind_none]

end Sys2Proof.Machine
end

section
/-! PROOFS. What an event does has no part in the events after it: each is served whole, and in its turn (R60, R65, R71). -/

namespace Sys2Proof.Machine

/-! ### Every event the port has completes -/

/-- No command stops the engine (R204). -/
theorem exec_completes (i : Instr) (s : State) : ∃ t, exec i s = .next t := by
  cases i with
  | nop | srst | cvt | rdq | rdd | setfc | setq | setfs | ccalc | rdp => exact ⟨_, rfl⟩
  | ldq k => cases k <;> exact ⟨_, rfl⟩
  | ldd k => cases k <;> exact ⟨_, rfl⟩
  | clrch ch | stepi ch imm | stepf ch imm | stepd ch imm | rdst ch f | wrst ch f => exact onChannel_completes ch s _

theorem runWord_completes (w : Word) (s : State) : ∃ t, runWord w s = .next t := by
  unfold runWord
  split
  · exact exec_completes _ s
  · exact ⟨s.raiseIllegal, rfl⟩

theorem portStep_completes {e : HostEvent} (he : e.onPort = true) (s : State) : ∃ t, portStep e s = .next t := by
  cases e with
  | reset => exact ⟨s.doReset, rfl⟩
  | read off => exact ⟨_, portRead_of_onPort (of_decide_eq_true he) s⟩
  | write off w =>
    have hoff : off < 0x40 ∧ off % 4 = 0 := of_decide_eq_true he
    by_cases hcmd : PortReg.ofOffset off = .cmd
    · rw [portStep, portWrite_of_cmd hoff hcmd]
      exact runWord_completes w s
    · exact ⟨_, portWrite_of_ne_cmd hoff hcmd w s⟩
  | other width off => exact absurd he nofun

/-! ### No event depends on the events after it -/

/-- The state with other events to come. -/
def State.withPending (s : State) (p : List HostEvent) : State := { s with pending := p }

/-- The outcome with other events to come in its next state. -/
def outcomeWithPending (p : List HostEvent) : Host.Outcome State Fault Refusal → Host.Outcome State Fault Refusal
  | .next t => .next (t.withPending p)
  | .fault r => .fault r
  | .refused r => .refused r

section
variable (s : State) (p : List HostEvent)

theorem onChannel_withPending (ch : ChIndex) {f g : Channel → State} (hfg : ∀ c, g c = (f c).withPending p) :
    onChannel ch (s.withPending p) g = outcomeWithPending p (onChannel ch s f) := by
  cases hc : s.channels[ch.toNat]? with
  | none =>
    have hc' : (s.withPending p).channels[ch.toNat]? = none := hc
    rw [onChannel, onChannel, hc, hc']
    rfl
  | some c =>
    have hc' : (s.withPending p).channels[ch.toNat]? = some c := hc
    simp only [onChannel, hc, hc', hfg, outcomeWithPending]

/-- A command reads no further event (R57). -/
theorem exec_withPending (i : Instr) : exec i (s.withPending p) = outcomeWithPending p (exec i s) := by
  cases i with
  | nop | srst | cvt | rdq | rdd | setfc | setq | setfs | ccalc | rdp => rfl
  | ldq k => cases k <;> rfl
  | ldd k => cases k <;> rfl
  | wrst ch f => exact onChannel_withPending s p ch fun c => by cases f <;> rfl
  | clrch ch | stepi ch imm | stepf ch imm | stepd ch imm | rdst ch f => exact onChannel_withPending s p ch fun c => rfl

theorem runWord_withPending (w : Word) : runWord w (s.withPending p) = outcomeWithPending p (runWord w s) := by
  cases hd : decode s.nch w with
  | none =>
    have hd' : decode (s.withPending p).nch w = none := hd
    rw [runWord, runWord, hd, hd']
    rfl
  | some i =>
    have hd' : decode (s.withPending p).nch w = some i := hd
    rw [runWord, runWord, hd, hd']
    exact exec_withPending s p i

theorem State.writeReg_withPending (w : Word) (r : PortReg) :
    (s.withPending p).writeReg w r = (s.writeReg w r).withPending p := by
  cases r <;> rfl

/-- What an event does has no part in the events after it. -/
theorem portStep_withPending (e : HostEvent) : portStep e (s.withPending p) = outcomeWithPending p (portStep e s) := by
  cases e with
  | reset => rfl
  | other width off => rfl
  | read off =>
    rw [portStep, portStep, portRead, portRead]
    cases offsetRefusal off with
    | some r => rfl
    | none =>
      have hread := s.readReg_hostSide p s.observed (PortReg.ofOffset off)
      simp only [State.withPending, hread, outcomeWithPending]
  | write off w =>
    rw [portStep, portStep]
    cases hoff : offsetRefusal off with
    | some r => simp only [portWrite, hoff, outcomeWithPending]
    | none =>
      have hon := (offsetRefusal_eq_none off).mp hoff
      by_cases hcmd : PortReg.ofOffset off = .cmd
      · rw [portWrite_of_cmd hon hcmd, portWrite_of_cmd hon hcmd, runWord_withPending]
      · rw [portWrite_of_ne_cmd hon hcmd, portWrite_of_ne_cmd hon hcmd, State.writeReg_withPending]
        rfl

end

/-- Serving an event leaves the events after it to come. -/
theorem portStep_pending {e : HostEvent} {s t : State} (h : portStep e s = .next t) : t.pending = s.pending := by
  have hkept : portStep e s = outcomeWithPending s.pending (portStep e s) := portStep_withPending s s.pending e
  rw [h] at hkept
  have ht : t = t.withPending s.pending := Host.Outcome.next.inj hkept
  calc t.pending = (t.withPending s.pending).pending := congrArg State.pending ht
    _ = s.pending := rfl

/-- Settles O6: the event completes from the state without it, and leaves the events after it. -/
theorem everyPortEventCompletes : Obligations.EveryPortEventCompletes := by
  intro s e rest hp hon
  obtain ⟨t, ht⟩ := portStep_completes hon { s with pending := rest }
  have hstep : step s = .next t := (step_of_pending hp).trans ht
  exact ⟨t, hstep, portStep_pending ht, step_nch hstep⟩

/-- Settles O7, by induction on the transactions to serve: the first is served from the list as in the run, since the
transactions after it have no part in it, and the rest of the list is served from the state it leaves. -/
theorem stepsServeTransactionsInOrder : Obligations.StepsServeTransactionsInOrder := by
  intro es rest s hp
  induction es generalizing s with
  | nil =>
    obtain rfl : s.pending = rest := hp
    rfl
  | cons e es ih =>
    have hstep : step s = outcomeWithPending (es ++ rest) (portStep e (s.withPending rest)) :=
      (step_of_pending hp).trans (portStep_withPending (s.withPending rest) (es ++ rest) e)
    change stepN (es.length + 1) s = runEvents (e :: es) (s.withPending rest)
    rw [stepN, runEvents, hstep]
    cases ht : portStep e (s.withPending rest) with
    | next t =>
      have hrest : t.withPending rest = t := congrArg t.withPending (portStep_pending ht).symm
      exact (ih (t.withPending (es ++ rest)) rfl).trans (congrArg (runEvents es) hrest)
    | fault r => rfl
    | refused r => rfl

end Sys2Proof.Machine
end

section
/-! PROOFS. The decoder and the encoder are inverse to each other (R81 to R89). -/

namespace Sys2Proof

/-! ### The fields of a command -/

/-- The command's word has these four fields (R81, R84). -/
def Instr.HasFields (i : Instr) (op : BitVec 8) (ch sel : BitVec 4) (imm : Sample) : Prop :=
  i.opcode = op ∧ i.chField = ch ∧ i.selField = sel ∧ i.immField = imm

/-- A word is the command's exactly where its four fields are (R81). -/
theorem encode_eq_iff_hasFields {i : Instr} {w : Word} : encode i = w ↔ i.HasFields w.op w.ch w.sel w.imm := by
  constructor
  · rintro rfl
    obtain ⟨hop, hch, hsel, himm⟩ := Laws.Fields.all i
    exact ⟨hop.symm, hch.symm, hsel.symm, himm.symm⟩
  · rintro ⟨hop, hch, hsel, himm⟩
    rw [encode, hop, hch, hsel, himm, packFields_of_word]

/-! ### What each form of R84 answers -/

section
variable {op : BitVec 8} {ch sel : BitVec 4} {imm : Sample} {j : Instr}

theorem formPlain_hasFields {i : Instr} (h : formPlain i ch sel imm = some j) (hi : i.HasFields op 0 0 0) :
    j.HasFields op ch sel imm := by
  obtain ⟨⟨rfl, rfl, rfl⟩, hij⟩ := Option.ite_none_right_eq_some.mp h
  exact Option.some.inj hij ▸ hi

theorem formSel_hasFields {f : BitVec 4 → Option Instr} (h : formSel f ch sel imm = some j)
    (hf : f sel = some j → j.HasFields op 0 sel 0) : j.HasFields op ch sel imm := by
  obtain ⟨⟨rfl, rfl⟩, hj⟩ := Option.ite_none_right_eq_some.mp h
  exact hf hj

theorem formCh_hasFields {f : ChIndex → Instr} (h : formCh f ch sel imm = some j) (hf : (f ch).HasFields op ch 0 0) :
    j.HasFields op ch sel imm := by
  obtain ⟨⟨rfl, rfl⟩, hj⟩ := Option.ite_none_right_eq_some.mp h
  exact Option.some.inj hj ▸ hf

theorem formChImm_hasFields {f : ChIndex → Sample → Instr} (h : formChImm f ch sel imm = some j)
    (hf : (f ch imm).HasFields op ch 0 imm) : j.HasFields op ch sel imm := by
  obtain ⟨rfl, hj⟩ := Option.ite_none_right_eq_some.mp h
  exact Option.some.inj hj ▸ hf

theorem formChSel_hasFields {f : ChIndex → BitVec 4 → Option Instr} (h : formChSel f ch sel imm = some j)
    (hf : f ch sel = some j → j.HasFields op ch sel 0) : j.HasFields op ch sel imm := by
  obtain ⟨rfl, hj⟩ := Option.ite_none_right_eq_some.mp h
  exact hf hj

/-- A command made of a name has its fields where the command of every name that the selector can stand for does. -/
theorem hasFields_of_map_eq_some {α : Type} {name : Option α} {cmd : α → Instr} (h : name.map cmd = some j)
    (hcmd : ∀ a, name = some a → (cmd a).HasFields op ch sel imm) : j.HasFields op ch sel imm := by
  obtain ⟨a, ha, rfl⟩ := Option.map_eq_some_iff.mp h
  exact hcmd a ha

/-- Fields that decode are those of the command they decode to: each arm of the opcode map answers commands of its own opcode, and
its form requires 0 of the fields they do not use. -/
theorem hasFields_of_decodeFields (h : decodeFields op ch sel imm = some j) : j.HasFields op ch sel imm := by
  unfold decodeFields at h
  split at h
  case h_1 hop | h_2 hop | h_4 hop | h_9 hop | h_10 hop | h_11 hop | h_12 hop =>
    exact formPlain_hasFields h ⟨BitVec.eq_of_toNat_eq hop.symm, rfl, rfl, rfl⟩
  case h_3 hop => exact formCh_hasFields h ⟨BitVec.eq_of_toNat_eq hop.symm, rfl, rfl, rfl⟩
  case h_5 hop | h_6 hop | h_7 hop | h_8 hop =>
    exact formSel_hasFields h fun hj => hasFields_of_map_eq_some hj fun k hk =>
      ⟨BitVec.eq_of_toNat_eq hop.symm, rfl, Coef.sel_of_ofSel hk, rfl⟩
  case h_13 hop =>
    exact formSel_hasFields h fun hj => hasFields_of_map_eq_some hj fun p hp =>
      ⟨BitVec.eq_of_toNat_eq hop.symm, rfl, Param.sel_of_ofSel hp, rfl⟩
  case h_14 hop | h_15 hop | h_16 hop => exact formChImm_hasFields h ⟨BitVec.eq_of_toNat_eq hop.symm, rfl, rfl, rfl⟩
  case h_17 hop | h_18 hop =>
    exact formChSel_hasFields h fun hj => hasFields_of_map_eq_some hj fun f hf =>
      ⟨BitVec.eq_of_toNat_eq hop.symm, rfl, Field.sel_of_ofSel hf, rfl⟩
  case h_19 => exact absurd h nofun

end

/-- The fields of a command decode to it. -/
theorem decodeFields_of_instr (i : Instr) : decodeFields i.opcode i.chField i.selField i.immField = some i := by
  cases i with
  | nop | srst | cvt | setfc | setq | setfs | ccalc => rfl
  | clrch | stepi | stepf | stepd => rfl
  | ldq k | ldd k | rdq k | rdd k => exact congrArg (Option.map _) (Coef.ofSel_sel k)
  | rdp p => exact congrArg (Option.map _) (Param.ofSel_sel p)
  | rdst ch f | wrst ch f => exact congrArg (Option.map _) (Field.ofSel_sel f)

/-! ### The round trips -/

/-- A word decodes exactly to the legal command whose word it is. -/
theorem decode_eq_some_iff {nch : Nat} {w : Word} {i : Instr} :
    decode nch w = some i ↔ encode i = w ∧ i.wf nch = true := by
  rw [decode, Option.filter_eq_some_iff, encode_eq_iff_hasFields]
  refine and_congr_left fun _ => ⟨hasFields_of_decodeFields, ?_⟩
  rintro ⟨hop, hch, hsel, himm⟩
  rw [← hop, ← hch, ← hsel, ← himm, decodeFields_of_instr]

/-- Settles O15: one direction of the round trip. -/
theorem decodeOfEncodeIsTheCommand : Obligations.DecodeOfEncodeIsTheCommand :=
  fun _ _ hwf => decode_eq_some_iff.mpr ⟨rfl, hwf⟩

/-- Settles O16: the other direction. -/
theorem encodeOfDecodeIsTheWord : Obligations.EncodeOfDecodeIsTheWord :=
  fun _ _ _ hdecode => decode_eq_some_iff.mp hdecode

end Sys2Proof
end

section
/-! PROOFS. The rows of R84: which words they admit (R88), and what their match and mask select (R85). -/

namespace Sys2Proof

open Machine

/-! ### The row of a command -/

/-- The row of R84 for the command's opcode. -/
def Instr.row (i : Instr) : OpRow where
  op := i.opcode
  usesCh := i.channel?.isSome
  sels :=
    match i with
    | .ldq _ | .ldd _ => some [0, 1, 3, 4]
    | .rdq _ | .rdd _ => some [0, 1, 2, 3, 4]
    | .rdp _ => some [0, 1, 2]
    | .rdst _ _ | .wrst _ _ => some [0, 1, 2, 3, 4, 5, 6, 7, 8]
    | _ => none
  usesImm :=
    match i with
    | .stepi _ _ | .stepf _ _ | .stepd _ _ => true
    | _ => false

theorem Instr.row_mem (i : Instr) : i.row ∈ opRowsLow ++ opRowsHigh := by
  cases i <;> exact of_decide_eq_true rfl

/-- No two rows of R84 have one opcode. -/
theorem Machine.OpRow.eq_of_op_eq :
    ∀ r ∈ opRowsLow ++ opRowsHigh, ∀ r' ∈ opRowsLow ++ opRowsHigh, r.op = r'.op → r = r' := by
  decide

/-- A command's opcode determines its row. -/
theorem Instr.row_eq_iff {i j : Instr} : i.row = j.row ↔ i.opcode = j.opcode :=
  ⟨congrArg OpRow.op, OpRow.eq_of_op_eq _ i.row_mem _ j.row_mem⟩

/-- R88's conditions on CH and SEL are the command's legality; the other conditions hold of every command's word. -/
theorem Machine.OpRow.admits_encode (i : Instr) (nch : Nat) : i.row.admits nch (encode i) = i.wf nch := by
  obtain ⟨hop, hch, hsel, himm⟩ := Laws.Fields.all i
  simp only [Word.op, Word.ch, Word.sel, Word.imm] at hop hch hsel himm
  rw [OpRow.admits, hop, hch, hsel, himm]
  cases i with
  | nop | srst | cvt | setfc | setq | setfs | ccalc => rfl
  | clrch | stepi | stepf | stepd => exact (Bool.and_true _).trans (Bool.and_true _)
  | ldq k | ldd k | rdq k | rdd k => cases k <;> rfl
  | rdp p => cases p <;> rfl
  | rdst ch f | wrst ch f => cases f <;> exact (Bool.and_true _).trans (Bool.and_true _)

/-- The fields of a word that a row admits (R88): the row's opcode, a SEL value of the row, and 0 in every field the row does not
use. -/
theorem Machine.OpRow.fields_of_admits {row : OpRow} {nch : Nat} {w : Word} (h : row.admits nch w = true) :
    row.op = w.op ∧ (row.usesCh = false → 0 = w.ch) ∧ (∀ sels, row.sels = some sels → w.sel ∈ sels) ∧
      (row.sels.isSome = false → 0 = w.sel) ∧ (row.usesImm = false → 0 = w.imm) := by
  simp only [OpRow.admits, Bool.and_eq_true, decide_eq_true_eq, Bool.or_eq_true] at h
  obtain ⟨⟨⟨hop, hch⟩, hsel⟩, himm⟩ := h
  refine ⟨hop.symm, fun hu => ?_, fun sels hs => ?_, fun hs => ?_, fun hu => ?_⟩
  · rw [hu] at hch; exact (of_decide_eq_true hch).symm
  · rw [hs] at hsel; exact List.contains_iff_mem.mp hsel
  · rw [Option.isSome_eq_false_iff, Option.isNone_iff_eq_none] at hs
    rw [hs] at hsel; exact (of_decide_eq_true hsel).symm
  · rw [hu] at himm; exact (himm.resolve_left nofun).symm

/-- A selector whose value is in a list of named values has a name. -/
theorem exists_name_of_mem {α : Type} {ofSel : BitVec 4 → Option α} {sels : List (BitVec 4)} {v : BitVec 4} (h : v ∈ sels)
    (hnamed : ∀ v ∈ sels, (ofSel v).isSome = true) : ∃ a, ofSel v = some a :=
  Option.isSome_iff_exists.mp (hnamed v h)

/-- A word that a row of R84 admits is the word of a command of that row. -/
theorem Machine.OpRow.exists_encode_eq_of_admits {row : OpRow} (hrow : row ∈ opRowsLow ++ opRowsHigh) {nch : Nat} {w : Word}
    (h : row.admits nch w = true) : ∃ i : Instr, i.row = row ∧ encode i = w := by
  simp only [encode_eq_iff_hasFields]
  obtain ⟨hop, hch, hsels, hsel, himm⟩ := OpRow.fields_of_admits h
  simp only [opRowsLow, opRowsHigh, List.cons_append, List.nil_append, List.mem_cons, List.not_mem_nil, or_false] at hrow
  rcases hrow with rfl | rfl | rfl | rfl | rfl | rfl | rfl | rfl | rfl | rfl | rfl | rfl | rfl | rfl | rfl | rfl | rfl | rfl
  · exact ⟨.nop, rfl, hop, hch rfl, hsel rfl, himm rfl⟩
  · exact ⟨.srst, rfl, hop, hch rfl, hsel rfl, himm rfl⟩
  · exact ⟨.clrch w.ch, rfl, hop, rfl, hsel rfl, himm rfl⟩
  · exact ⟨.cvt, rfl, hop, hch rfl, hsel rfl, himm rfl⟩
  · obtain ⟨k, hk⟩ := exists_name_of_mem (ofSel := Coef.ofSel) (hsels _ rfl) (by decide)
    exact ⟨.ldq k, rfl, hop, hch rfl, Coef.sel_of_ofSel hk, himm rfl⟩
  · obtain ⟨k, hk⟩ := exists_name_of_mem (ofSel := Coef.ofSel) (hsels _ rfl) (by decide)
    exact ⟨.ldd k, rfl, hop, hch rfl, Coef.sel_of_ofSel hk, himm rfl⟩
  · obtain ⟨k, hk⟩ := exists_name_of_mem (ofSel := Coef.ofSel) (hsels _ rfl) (by decide)
    exact ⟨.rdq k, rfl, hop, hch rfl, Coef.sel_of_ofSel hk, himm rfl⟩
  · obtain ⟨k, hk⟩ := exists_name_of_mem (ofSel := Coef.ofSel) (hsels _ rfl) (by decide)
    exact ⟨.rdd k, rfl, hop, hch rfl, Coef.sel_of_ofSel hk, himm rfl⟩
  · exact ⟨.setfc, rfl, hop, hch rfl, hsel rfl, himm rfl⟩
  · exact ⟨.setq, rfl, hop, hch rfl, hsel rfl, himm rfl⟩
  · exact ⟨.setfs, rfl, hop, hch rfl, hsel rfl, himm rfl⟩
  · exact ⟨.ccalc, rfl, hop, hch rfl, hsel rfl, himm rfl⟩
  · obtain ⟨p, hp⟩ := exists_name_of_mem (ofSel := Param.ofSel) (hsels _ rfl) (by decide)
    exact ⟨.rdp p, rfl, hop, hch rfl, Param.sel_of_ofSel hp, himm rfl⟩
  · exact ⟨.stepi w.ch w.imm, rfl, hop, rfl, hsel rfl, rfl⟩
  · exact ⟨.stepf w.ch w.imm, rfl, hop, rfl, hsel rfl, rfl⟩
  · exact ⟨.stepd w.ch w.imm, rfl, hop, rfl, hsel rfl, rfl⟩
  · obtain ⟨f, hf⟩ := exists_name_of_mem (ofSel := Field.ofSel) (hsels _ rfl) (by decide)
    exact ⟨.rdst w.ch f, rfl, hop, rfl, Field.sel_of_ofSel hf, himm rfl⟩
  · obtain ⟨f, hf⟩ := exists_name_of_mem (ofSel := Field.ofSel) (hsels _ rfl) (by decide)
    exact ⟨.wrst w.ch f, rfl, hop, rfl, Field.sel_of_ofSel hf, himm rfl⟩

/-- Settles O17: the row of the command that a word decodes to admits the word, and a word that a row admits is the word of a
legal command. -/
theorem wordsDecodeExactlyWhereLegal : Obligations.WordsDecodeExactlyWhereLegal := by
  intro nch w
  simp only [legalWord, List.any_eq_true, decode_eq_some_iff]
  constructor
  · rintro ⟨i, rfl, hwf⟩
    exact ⟨i.row, i.row_mem, (OpRow.admits_encode i nch).trans hwf⟩
  · rintro ⟨row, hrow, hadmits⟩
    obtain ⟨i, rfl, rfl⟩ := OpRow.exists_encode_eq_of_admits hrow hadmits
    exact ⟨i, rfl, (OpRow.admits_encode i nch).symm.trans hadmits⟩

/-! ### Match and mask (R85) -/

@[simp] theorem Word.op_and (w v : Word) : Word.op (w &&& v) = w.op &&& v.op := BitVec.extractLsb'_and
@[simp] theorem Word.ch_and (w v : Word) : Word.ch (w &&& v) = w.ch &&& v.ch := BitVec.extractLsb'_and
@[simp] theorem Word.sel_and (w v : Word) : Word.sel (w &&& v) = w.sel &&& v.sel := BitVec.extractLsb'_and
@[simp] theorem Word.imm_and (w v : Word) : Word.imm (w &&& v) = w.imm &&& v.imm := BitVec.extractLsb'_and

theorem eq_packFields_iff {w : Word} {op : BitVec 8} {ch sel : BitVec 4} {imm : Sample} :
    w = packFields op ch sel imm ↔ w.op = op ∧ w.ch = ch ∧ w.sel = sel ∧ w.imm = imm := by
  constructor
  · rintro rfl
    simp
  · rintro ⟨rfl, rfl, rfl, rfl⟩
    exact (packFields_of_word w).symm

/-- The mask of a field: every bit where the field must be 0, no bit where the row uses it. -/
def fieldMask (n : Nat) : Bool → BitVec n
  | true => 0
  | false => BitVec.allOnes n

theorem and_fieldMask_eq_zero_iff {n : Nat} {x : BitVec n} {used : Bool} :
    x &&& fieldMask n used = 0 ↔ (used = false → x = 0) := by
  cases used <;> simp [fieldMask]

/-- R85's match is the opcode alone, and its mask covers OP and the fields that the row does not use. -/
theorem Instr.matchMask_eq (i : Instr) : i.matchMask = (packFields i.opcode 0 0 0,
    packFields (BitVec.allOnes 8) (fieldMask 4 i.row.usesCh) (fieldMask 4 i.row.sels.isSome) (fieldMask 16 i.row.usesImm)) := by
  cases i <;> simp only [Instr.matchMask, Instr.opcode, Instr.row, Instr.channel?, Option.isSome, fieldMask] <;> decide

/-- A word carries a command's match under its mask exactly where it has the command's opcode, and 0 in every field that the
command's row does not use. -/
theorem and_mask_eq_match_iff {w : Word} {i : Instr} : w &&& i.matchMask.2 = i.matchMask.1 ↔
    w.op = i.opcode ∧ (i.row.usesCh = false → w.ch = 0) ∧ (i.row.sels.isSome = false → w.sel = 0) ∧
      (i.row.usesImm = false → w.imm = 0) := by
  simp only [Instr.matchMask_eq, eq_packFields_iff, Word.op_and, Word.ch_and, Word.sel_and, Word.imm_and, packFields_op,
    packFields_ch, packFields_sel, packFields_imm, BitVec.and_allOnes, and_fieldMask_eq_zero_iff]

/-- Settles O18: a match fixes the opcode, and a command of the word's opcode has the row that admits the word. -/
theorem matchAndMaskSelectTheOpcode : Obligations.MatchAndMaskSelectTheOpcode := by
  intro nch w i j hdecode
  obtain ⟨rfl, hwf⟩ := decode_eq_some_iff.mp hdecode
  obtain ⟨hop, hch, -, hsel, himm⟩ := OpRow.fields_of_admits ((OpRow.admits_encode i nch).trans hwf)
  rw [and_mask_eq_match_iff]
  refine ⟨fun ⟨hmatch, _⟩ => hop.trans hmatch, fun hij => ?_⟩
  rw [← Instr.row_eq_iff.mpr hij, ← hij]
  exact ⟨hop.symm, fun hu => (hch hu).symm, fun hu => (hsel hu).symm, fun hu => (himm hu).symm⟩

end Sys2Proof
end

section
/-! PROOFS. A line of program text never gives an illegal command (R91), and the worked lines (R93). -/

namespace Sys2Proof.Machine

/-- The text of a channel names one the engine has. -/
theorem parseChannel_inRange {nch : Nat} {tok : String} {ch : ChIndex} (h : parseChannel nch tok = some ch) :
    ChIndex.inRange nch ch = true := by
  unfold parseChannel at h
  split at h
  · obtain ⟨v, hv, rfl⟩ := Option.map_eq_some_iff.mp h
    obtain ⟨hlt, hfits⟩ := of_decide_eq_true (Option.filter_eq_some_iff.mp hv).2
    rw [ChIndex.inRange, BitVec.toNat_ofNat, Nat.mod_eq_of_lt hfits]
    exact decide_eq_true hlt
  · exact absurd h nofun

section
variable {nch : Nat} {i : Instr}

theorem parsePlain_wf {name : String} (h : parsePlain name = some (.command i)) : i.wf nch = true := by
  unfold parsePlain at h
  split at h
  case h_8 | h_9 | h_10 => exact absurd h nofun
  all_goals cases h; rfl

theorem parseOne_wf {name a : String} (h : parseOne nch name a = some (.command i)) : i.wf nch = true := by
  unfold parseOne at h
  split at h
  case h_1 =>
    obtain ⟨ch, hch, hi⟩ := Option.map_eq_some_iff.mp h
    cases hi
    exact parseChannel_inRange hch
  case h_2 | h_3 =>
    obtain ⟨k, hk, hi⟩ := Option.map_eq_some_iff.mp h
    cases hi
    exact (Option.filter_eq_some_iff.mp hk).2
  case h_4 | h_5 | h_6 =>
    obtain ⟨_, -, hi⟩ := Option.map_eq_some_iff.mp h
    cases hi
    rfl
  case h_7 | h_8 | h_9 =>
    obtain ⟨_, -, hi⟩ := Option.map_eq_some_iff.mp h
    exact absurd hi nofun
  case h_10 => exact absurd h nofun

theorem parseTwo_wf {name a b : String} (h : parseTwo nch name a b = some (.command i)) : i.wf nch = true := by
  unfold parseTwo at h
  split at h
  case h_1 | h_2 | h_3 | h_4 | h_5 =>
    obtain ⟨ch, hch, hb⟩ := Option.bind_eq_some_iff.mp h
    obtain ⟨_, -, hi⟩ := Option.map_eq_some_iff.mp hb
    cases hi
    exact parseChannel_inRange hch
  case h_6 | h_7 | h_8 =>
    obtain ⟨_, -, hb⟩ := Option.bind_eq_some_iff.mp h
    obtain ⟨_, -, hi⟩ := Option.map_eq_some_iff.mp hb
    exact absurd hi nofun
  case h_9 => exact absurd h nofun

theorem parseWords_wf {toks : List String} (h : parseWords nch toks = some (.command i)) : i.wf nch = true := by
  unfold parseWords at h
  split at h
  case h_1 => exact parsePlain_wf h
  case h_2 => exact parseOne_wf h
  case h_4 => exact parseTwo_wf h
  case h_3 =>
    obtain ⟨_, -, hv⟩ := Option.bind_eq_some_iff.mp h
    obtain ⟨_, -, hi⟩ := Option.map_eq_some_iff.mp hv
    exact absurd hi nofun
  case h_5 =>
    obtain ⟨_, -, hfs⟩ := Option.bind_eq_some_iff.mp h
    obtain ⟨_, -, hq⟩ := Option.bind_eq_some_iff.mp hfs
    obtain ⟨_, -, hi⟩ := Option.map_eq_some_iff.mp hq
    exact absurd hi nofun
  case h_6 => exact absurd h nofun

end

/-- Settles O20: the line is not blank, and the words of a command line name a channel the engine has and a coefficient that can
be loaded. -/
theorem assembledCommandsAreLegal : Obligations.AssembledCommandsAreLegal := by
  intro nch text i h
  unfold assembleLine at h
  split at h
  · exact absurd h nofun
  · obtain ⟨l, hl, hi⟩ := Option.map_eq_some_iff.mp h
    cases hi
    exact parseWords_wf hl

/-- Settles O19: each word and each line is evaluated. -/
theorem workedEncodingsDecode : Obligations.WorkedEncodingsDecode := by
  unfold Obligations.WorkedEncodingsDecode
  and_intros <;> decide

end Sys2Proof.Machine
end

section
/-! PROOFS. What the pseudo-instructions do (R92). -/

namespace Sys2Proof.Machine

/-! ### A run, event by event (R71) -/

theorem runEvents_cons {e : HostEvent} {s t : State} (h : portStep e s = .next t) (es : List HostEvent) :
    runEvents (e :: es) s = runEvents es t := by
  rw [runEvents, h]

theorem runEvents_singleton (e : HostEvent) (s : State) : runEvents [e] s = portStep e s := by
  rw [runEvents]
  cases portStep e s <;> rfl

theorem PortReg.ofOffset_offset (r : PortReg) : PortReg.ofOffset r.offset = r := by cases r <;> rfl

theorem PortReg.offset_onPort (r : PortReg) : r.offset < 0x40 ∧ r.offset % 4 = 0 := by cases r <;> decide

theorem runEvents_read (r : PortReg) (es : List HostEvent) (s : State) :
    runEvents (.read r.offset :: es) s = runEvents es { s with observed := s.observed ++ [s.readReg r] } := by
  refine runEvents_cons ?_ es
  rw [portStep, portRead_of_onPort r.offset_onPort, r.ofOffset_offset]

theorem runEvents_write (r : PortReg) (hr : r ≠ .cmd) (w : Word) (es : List HostEvent) (s : State) :
    runEvents (.write r.offset w :: es) s = runEvents es (s.writeReg w r) := by
  refine runEvents_cons ?_ es
  rw [portStep, portWrite_of_ne_cmd r.offset_onPort (r.ofOffset_offset.trans_ne hr), r.ofOffset_offset]

/-- A legal command runs from its own word (R57). -/
theorem portStep_cmdEvent {i : Instr} {s : State} (hwf : i.wf s.nch = true) : portStep (cmdEvent i) s = exec i s := by
  have hdecode : decode s.nch (encode i) = some i := decodeOfEncodeIsTheCommand s.nch i hwf
  rw [cmdEvent, portStep, portWrite_of_cmd (PortReg.offset_onPort .cmd) rfl, runWord, hdecode]

theorem runEvents_cmdEvent {i : Instr} {s t : State} (hwf : i.wf s.nch = true) (h : exec i s = .next t) (es : List HostEvent) :
    runEvents (cmdEvent i :: es) s = runEvents es t :=
  runEvents_cons ((portStep_cmdEvent hwf).trans h) es

/-- The two writes of `opr` put the value into OPR: the second keeps the half that the first wrote. -/
theorem runEvents_oprEvents (v : DWord) (es : List HostEvent) (s : State) :
    runEvents (oprEvents v ++ es) s = runEvents es { s with opr := v } := by
  have hhalves : v.extractLsb' 32 32 ++ (s.opr.extractLsb' 32 32 ++ v.extractLsb' 0 32).extractLsb' 0 32 = v := by
    rw [BitVec.extractLsb'_append_eq_right]
    exact BitVec.extractLsb'_append_extractLsb'
  calc runEvents (oprEvents v ++ es) s
    _ = runEvents es ((s.writeReg (v.extractLsb' 0 32) .oprLo).writeReg (v.extractLsb' 32 32) .oprHi) := by
      rw [oprEvents, List.cons_append, runEvents_write .oprLo nofun, List.cons_append, runEvents_write .oprHi nofun,
        List.nil_append]
    _ = runEvents es { s with opr := v } := by simp only [State.writeReg, hhalves]

/-! ### CTRL with one policy set -/

/-- Bit n of CTRL with the policy of a channel set is that policy's, or the bit as read. -/
theorem withPolicy_getLsbD (t : Word) (ch : ChIndex) (pol : CarryPolicy) {n : Nat} (hn : n < 32) :
    (withPolicy t ch pol).getLsbD n = if n = ch.toNat then decide (pol = .roundAndReset) else t.getLsbD n := by
  have hbit : (1#32 <<< ch.toNat).getLsbD n = decide (n = ch.toNat) := by
    have hch : ch.toNat < 32 := ch.isLt.trans (by decide)
    rw [← BitVec.twoPow_eq, BitVec.getLsbD_twoPow, decide_eq_true hch, Bool.true_and, decide_eq_decide]
    exact eq_comm
  cases pol with
  | carryRemainder =>
    rw [withPolicy, BitVec.getLsbD_and, BitVec.getLsbD_not, hbit]
    split <;> simp [*]
  | roundAndReset =>
    rw [withPolicy, BitVec.getLsbD_or, hbit]
    split <;> simp [*]

theorem CarryPolicy.ofBit_decide (pol : CarryPolicy) : CarryPolicy.ofBit (decide (pol = .roundAndReset)) = pol := by
  cases pol <;> rfl

/-- The bit of CTRL for a channel the engine has (R23). -/
theorem ctrlWord_getLsbD_of_getElem? {cs : List Channel} {n : Nat} {c : Channel} (hn : n < 32) (hc : cs[n]? = some c) :
    (ctrlWord cs).getLsbD n = decide (c.pol = .roundAndReset) := by
  rw [Bool.eq_iff_iff, ctrlWord_getLsbD cs hn, hc, decide_eq_true_iff]
  exact ⟨fun ⟨_, hd, hpol⟩ => Option.some.inj hd ▸ hpol, fun hpol => ⟨c, rfl, hpol⟩⟩

/-- Writing CTRL back with the policy of a channel set changes that policy alone (R56). -/
theorem writePolicies_withPolicy {cs : List Channel} {ch : ChIndex} {c : Channel} (pol : CarryPolicy) (hlen : cs.length ≤ 32)
    (hc : cs[ch.toNat]? = some c) :
    writePolicies cs (withPolicy (ctrlWord cs) ch pol) = cs.set ch.toNat { c with pol := pol } := by
  apply List.ext_getElem?
  intro n
  rw [writePolicies_getElem?]
  by_cases hn : n = ch.toNat
  · subst hn
    have hlt := (List.getElem?_eq_some_iff.mp hc).1
    rw [hc, Option.map_some, withPolicy_getLsbD _ _ _ (hlt.trans_le hlen), if_pos rfl, CarryPolicy.ofBit_decide,
      List.getElem?_set_self hlt]
  · rw [List.getElem?_set_ne (Ne.symm hn)]
    cases hd : cs[n]? with
    | none => rfl
    | some d =>
      have h32 : n < 32 := (List.getElem?_eq_some_iff.mp hd).1.trans_le hlen
      rw [Option.map_some, withPolicy_getLsbD _ _ _ h32, if_neg hn, ctrlWord_getLsbD_of_getElem? h32 hd,
        CarryPolicy.ofBit_decide]

/-! ### The pseudo-instructions -/

/-- A write of 7 to STATUS clears every flag (R55). -/
theorem Status.clear_seven (f : Status) : f.clear 7 = Status.reset := by
  obtain ⟨ill, inv, sat⟩ := f
  revert ill inv sat
  decide

/-- The 32 bits that `setspec` loads into OPR for Fs come back. -/
theorem setWidth_resOfU32 (v : Word) : (resOfU32 v).setWidth 32 = v := by
  rw [resOfU32, BitVec.setWidth_setWidth_of_le v (by decide), BitVec.setWidth_eq]

/-- Settles O21, one pseudo-instruction after another: each is its events in order. `setspec` leaves in OPR the last of the three
values it loads. -/
theorem pseudoInstructionsHaveTheirEffect : Obligations.PseudoInstructionsHaveTheirEffect := by
  intro s
  refine ⟨fun t v => ?_, fun t x => ?_, fun t => ?_, fun ch pol c hinv hc => ?_, fun t => ?_, fun t k x hk => ?_,
    fun t fc q fs => ?_⟩
  · exact runEvents_oprEvents v [] s
  · exact runEvents_oprEvents x.toF64 [] s
  · rw [AsmLine.events, runEvents_read, runEvents_read, runEvents, List.append_assoc]
    rfl
  · have hlen : s.channels.length ≤ 32 := by
      obtain h | h := hinv <;> exact h.trans_le (by decide)
    rw [AsmLine.events, runEvents_read, runEvents_write .ctrl nofun, runEvents, ← writePolicies_withPolicy pol hlen hc]
    rfl
  · rw [AsmLine.events, runEvents_write .status nofun, runEvents, State.writeReg, Status.clear_seven]
    rfl
  · have hwf : (Instr.ldd k).wf s.nch = true := by
      cases k with
      | b2 => exact absurd rfl hk
      | _ => rfl
    rw [AsmLine.events, runEvents_oprEvents, runEvents_singleton]
    exact portStep_cmdEvent hwf
  · simp only [AsmLine.events, List.append_assoc, List.cons_append, List.nil_append]
    rw [runEvents_oprEvents, runEvents_cmdEvent rfl rfl, runEvents_oprEvents, runEvents_cmdEvent rfl rfl, runEvents_oprEvents,
      runEvents_cmdEvent rfl rfl, runEvents]
    simp only [State.opr32, State.oprF64, setWidth_resOfU32]

end Sys2Proof.Machine
end

section
/-! PROOFS. Q30sat and the coefficient commands CVT, LDQ, LDD, RDQ, RDD (40_qformat.md). -/

namespace Sys2Proof.Machine

/-! ### Truncation toward zero -/

/-- Truncation of a value not below 0 is the whole part of its magnitude. -/
theorem F64.truncScaled_of_nonneg {p : F64} (h : 0 ≤ F64.scaled p) (k : Nat) :
    F64.truncScaled p k = (F64.mag p * 2 ^ k / 2 ^ 1074 : Nat) := by
  have hval : F64.scaled p = F64.mag p := by rw [← F64.natAbs_scaled, Int.natAbs_of_nonneg h]
  rw [F64.truncScaled, hval]
  norm_cast

/-- Truncation of a value not above 0 is the whole part of its magnitude, negated. -/
theorem F64.truncScaled_of_nonpos {p : F64} (h : F64.scaled p ≤ 0) (k : Nat) :
    F64.truncScaled p k = -(F64.mag p * 2 ^ k / 2 ^ 1074 : Nat) := by
  have hval : F64.scaled p = -F64.mag p := by rw [← F64.natAbs_scaled, Int.ofNat_natAbs_of_nonpos h, Int.neg_neg]
  rw [F64.truncScaled, hval, Int.neg_mul, Int.neg_tdiv]
  norm_cast

theorem F64.natAbs_truncScaled (p : F64) (k : Nat) :
    (F64.truncScaled p k).natAbs = F64.mag p * 2 ^ k / 2 ^ 1074 := by
  rcases Int.le_total 0 (F64.scaled p) with h | h
  · rw [F64.truncScaled_of_nonneg h, Int.natAbs_natCast]
  · rw [F64.truncScaled_of_nonpos h, Int.natAbs_neg, Int.natAbs_natCast]

/-- Truncation keeps the sign, where it leaves anything. -/
theorem F64.truncScaled_mul_scaled_nonneg (p : F64) (k : Nat) : 0 ≤ F64.truncScaled p k * F64.scaled p := by
  rcases Int.le_total 0 (F64.scaled p) with h | h
  · rw [F64.truncScaled_of_nonneg h]
    exact Int.mul_nonneg (Int.natCast_nonneg _) h
  · rw [F64.truncScaled_of_nonpos h]
    exact Int.mul_nonneg_of_nonpos_of_nonpos (Int.neg_nonpos_of_nonneg (Int.natCast_nonneg _)) h

/-- A value in [-2, 2), in units of 2^-30, truncates to 32 bits. -/
theorem F64.truncScaled_bounds {p : F64} (hlow : -2 * 2 ^ 1074 ≤ F64.scaled p) (hhigh : F64.scaled p < 2 * 2 ^ 1074) :
    -2 ^ 31 ≤ F64.truncScaled p qFrac ∧ F64.truncScaled p qFrac < 2 ^ 31 := by
  have hmag := F64.natAbs_scaled p
  rcases Int.le_total 0 (F64.scaled p) with h | h
  · rw [F64.truncScaled_of_nonneg h, qFrac]
    omega
  · rw [F64.truncScaled_of_nonpos h, qFrac]
    omega

/-! ### Q30sat (R100) -/

section
variable {f : F64} (hnan : F64.isNaN f = false)
include hnan

/-- From 2.0 on Q30sat saturates. -/
theorem q30sat_of_ge (h : 2 * 2 ^ 1074 ≤ F64.scaled f) : q30sat f = { q := qMax, inv := false, sat := true } := by
  obtain ⟨hn, -⟩ | ⟨-, -, hq⟩ | ⟨-, hlt, -⟩ | ⟨-, -, hlt, -⟩ := q30sat_cases f
  · exact absurd (hnan.symm.trans hn) Bool.false_ne_true
  · exact hq
  · omega
  · omega

/-- Below -2.0 Q30sat saturates. -/
theorem q30sat_of_lt (h : F64.scaled f < -2 * 2 ^ 1074) : q30sat f = { q := qMin, inv := false, sat := true } := by
  obtain ⟨hn, -⟩ | ⟨-, hge, -⟩ | ⟨-, -, hq⟩ | ⟨-, hge, -, -⟩ := q30sat_cases f
  · exact absurd (hnan.symm.trans hn) Bool.false_ne_true
  · omega
  · exact hq
  · omega

section
variable (hlow : -2 * 2 ^ 1074 ≤ F64.scaled f) (hhigh : F64.scaled f < 2 * 2 ^ 1074)
include hlow hhigh

/-- In [-2, 2) Q30sat truncates. -/
theorem q30sat_of_inRange :
    q30sat f = { q := wrap32 (F64.truncScaled f qFrac), inv := false, sat := false } := by
  obtain ⟨hn, -⟩ | ⟨-, hge, -⟩ | ⟨-, hlt, -⟩ | ⟨-, -, -, hq⟩ := q30sat_cases f
  · exact absurd (hnan.symm.trans hn) Bool.false_ne_true
  · omega
  · omega
  · exact hq

/-- There the wrap to 32 bits loses nothing. -/
theorem q30sat_toInt_of_inRange : (q30sat f).q.toInt = F64.truncScaled f qFrac := by
  obtain ⟨hmin, hmax⟩ := F64.truncScaled_bounds hlow hhigh
  rw [q30sat_of_inRange hnan hlow hhigh]
  exact BitVec.toInt_ofInt_eq_self (by decide) hmin hmax

end
end

/-- Settles O35: saturation at the two bounds, and between them the truncation, whose magnitude is the whole part of the value's. -/
theorem q30satConvertsByTruncation : Obligations.Q30satConvertsByTruncation := by
  intro f
  refine ⟨fun h => if_pos h, q30sat_of_ge, q30sat_of_lt, fun hnan hlow hhigh => ?_⟩
  rw [q30sat_toInt_of_inRange hnan hlow hhigh, q30sat_of_inRange hnan hlow hhigh, F64.natAbs_truncScaled]
  have hpos : 0 < 2 ^ 1074 := by positivity
  exact ⟨rfl, rfl, Nat.div_mul_le_self _ _, Nat.lt_mul_of_div_lt (Nat.lt_succ_self _) hpos,
    F64.truncScaled_mul_scaled_nonneg f qFrac⟩

/-! ### Doubled coefficients (R101) -/

/-- A doubled value's truncation is twice the value's, or one unit further from 0. -/
theorem F64.truncScaled_of_double {f g : F64} (hg : F64.scaled g = 2 * F64.scaled f) :
    (0 ≤ F64.scaled f → F64.truncScaled g qFrac - 2 * F64.truncScaled f qFrac = 0 ∨
      F64.truncScaled g qFrac - 2 * F64.truncScaled f qFrac = 1) ∧
    (F64.scaled f ≤ 0 → F64.truncScaled g qFrac - 2 * F64.truncScaled f qFrac = 0 ∨
      F64.truncScaled g qFrac - 2 * F64.truncScaled f qFrac = -1) := by
  have hmag : F64.mag g = 2 * F64.mag f := by
    rw [← F64.natAbs_scaled, ← F64.natAbs_scaled, hg, Int.natAbs_mul]
    rfl
  constructor <;> intro h
  · rw [F64.truncScaled_of_nonneg h, F64.truncScaled_of_nonneg (p := g) (by omega), hmag, qFrac]
    omega
  · rw [F64.truncScaled_of_nonpos h, F64.truncScaled_of_nonpos (p := g) (by omega), hmag, qFrac]
    omega

/-- Settles O36: both values lie in [-2, 2), so both Q30 forms are truncations. -/
theorem doubledCoefficientTolerance : Obligations.DoubledCoefficientTolerance := by
  intro f g hf hg hdouble
  have hforms (hlow : -2 ^ 1074 ≤ F64.scaled f) (hhigh : F64.scaled f < 2 ^ 1074) :
      (q30sat f).q.toInt = F64.truncScaled f qFrac ∧ (q30sat g).q.toInt = F64.truncScaled g qFrac :=
    ⟨q30sat_toInt_of_inRange (F64.isNaN_of_isFinite hf) (by omega) (by omega),
      q30sat_toInt_of_inRange (F64.isNaN_of_isFinite hg) (by omega) (by omega)⟩
  obtain ⟨hnonneg, hnonpos⟩ := F64.truncScaled_of_double hdouble
  refine ⟨fun h0 h1 => ?_, fun h1 h0 => ?_⟩
  · obtain ⟨hqf, hqg⟩ := hforms (by omega) h1
    rw [hqf, hqg]
    exact hnonneg h0
  · obtain ⟨hqf, hqg⟩ := hforms h1 (by omega)
    rw [hqf, hqg]
    exact hnonpos h0.le

/-! ### CVT, LDQ, LDD, RDQ, RDD -/

theorem Coef.loadable_of_ne_b2 {k : Coef} (hk : k ≠ .b2) : k.loadable = true := by
  cases k with
  | b2 => exact absurd rfl hk
  | _ => rfl

/-- RES holds the value of a 32-bit result (R9). -/
@[simp] theorem toInt_resOf32 (v : Word) : (resOf32 v).toInt = v.toInt := BitVec.toInt_signExtend_of_le (by decide)

/-- Settles O37: CVT's own rule, and the sign extension keeps the value. -/
theorem cvtConvertsOpr : Obligations.CvtConvertsOpr := fun s =>
  ⟨resOf32 (q30sat s.opr).q, rfl, toInt_resOf32 _⟩

section
variable {k j : Coef} (hk : k ≠ .b2)
include hk

/-- A loaded coefficient reads back. -/
theorem QCoefs.get_set_self (q : QCoefs) (v : Word) : (q.set k v).get k = v := by
  rw [QCoefs.get_set q k k v (Coef.loadable_of_ne_b2 hk), if_pos (.inl rfl)]

theorem DCoefs.get_set_self (d : DCoefs) (v : F64) : (d.set k v).get k = v := by
  rw [DCoefs.get_set d k k v (Coef.loadable_of_ne_b2 hk), if_pos (.inl rfl)]

/-- No other stored coefficient changes. -/
theorem QCoefs.get_set_of_ne (q : QCoefs) (v : Word) (hjk : j ≠ k) (hj : j ≠ .b2) : (q.set k v).get j = q.get j := by
  rw [QCoefs.get_set q k j v (Coef.loadable_of_ne_b2 hk), if_neg (not_or_intro hjk fun h => hj h.1)]

theorem DCoefs.get_set_of_ne (d : DCoefs) (v : F64) (hjk : j ≠ k) (hj : j ≠ .b2) : (d.set k v).get j = d.get j := by
  rw [DCoefs.get_set d k j v (Coef.loadable_of_ne_b2 hk), if_neg (not_or_intro hjk fun h => hj h.1)]

end

/-- Settles O38: a coefficient other than b2 is loadable, and b2 reads b0 by definition. -/
theorem ldqLoadsTheQ30FormAlone : Obligations.LdqLoadsTheQ30FormAlone := by
  intro s k hk
  refine ⟨s.q.set k s.opr32, if_pos (Coef.loadable_of_ne_b2 hk), ?_, rfl, fun j => QCoefs.get_set_of_ne hk s.q s.opr32⟩
  rw [QCoefs.get_set_self hk, State.opr32, BitVec.setWidth_eq_extractLsb' (by decide)]

/-- Settles O39: the same for both forms at once, with the flags of the conversion. -/
theorem lddLoadsBothForms : Obligations.LddLoadsBothForms := fun s k hk =>
  ⟨s.q.set k (q30sat s.opr).q, s.d.set k s.opr, if_pos (Coef.loadable_of_ne_b2 hk), QCoefs.get_set_self hk _ _,
    DCoefs.get_set_self hk _ _, fun _ hjk hj => ⟨QCoefs.get_set_of_ne hk _ _ hjk hj, DCoefs.get_set_of_ne hk _ _ hjk hj⟩⟩

/-- Settles O40, selector by selector. -/
theorem rdqAndRddReturnTheForms : Obligations.RdqAndRddReturnTheForms := by
  intro s k
  refine ⟨⟨resOf32 (s.q.get k), rfl, ?_⟩, ?_⟩
  · rw [toInt_resOf32]
    cases k <;> rfl
  · cases k <;> rfl

end Sys2Proof.Machine
end

section
/-! PROOFS. The parameter commands and the coefficient calculator: SETFC, SETQ, SETFS, RDP, CCALC (41_coefficients.md). -/

namespace Sys2Proof.Machine

/-! ### Exact results -/

/-- Every finite magnitude is below the overflow bound. -/
theorem F64.mag_lt_overflowBound {z : F64} (hz : F64.isFinite z = true) : F64.mag z < F64.overflowBound := by
  obtain ⟨m, e, hmag, hm, he⟩ := F64.mag_form z hz
  rw [hmag]
  calc m * 2 ^ e ≤ (2 ^ 53 - 1) * 2 ^ 2045 :=
        Nat.mul_le_mul (by omega) (Nat.pow_le_pow_right (by decide) (by omega))
    _ < F64.overflowBound := by decide +kernel

/-- Where the exact result is itself the value of a finite pattern, the nearest value is exact, in whatever unit. -/
theorem F64.IsNearestEven.scaled_eq_of_eq_mul {n : Int} {den : Nat} {p z : F64} (hp : F64.IsNearestEven n den p)
    (hz : F64.isFinite z = true) (hn : n = F64.scaled z * den) (hd : 0 < den) : F64.scaled p = F64.scaled z := by
  obtain ⟨-, hnearest⟩ := hp
  obtain ⟨hle, -⟩ := hnearest z hz
  rw [hn, sub_self, Int.natAbs_zero, ← Int.sub_mul, Int.natAbs_mul, Int.natAbs_natCast, Nat.le_zero_eq,
    Nat.mul_eq_zero] at hle
  omega

/-- A product that is the value of a finite pattern is exact. -/
theorem F64.mul_exact (nan : F64) {a b z : F64} (ha : F64.isFinite a = true) (hb : F64.isFinite b = true)
    (hz : F64.isFinite z = true) (hprod : F64.scaled a * F64.scaled b = F64.scaled z * 2 ^ 1074) :
    F64.isFinite (F64.mul nan a b) = true ∧ F64.scaled (F64.mul nan a b) = F64.scaled z := by
  obtain ⟨hround, -, -⟩ := mulRoundsToNearestEven nan a b ha hb
  have hd : 0 < 2 ^ 1074 := by positivity
  have hbound : (F64.scaled a * F64.scaled b).natAbs < F64.overflowBound * 2 ^ 1074 := by
    rw [hprod, F64.natAbs_scaled_mul_two_pow]
    exact Nat.mul_lt_mul_of_pos_right (F64.mag_lt_overflowBound hz) hd
  have hnear := hround hbound
  exact ⟨hnear.1, hnear.scaled_eq_of_eq_mul hz (by exact_mod_cast hprod) hd⟩

/-- Twice a magnitude below 2^1023 is a significand in some binade: a subnormal's fraction doubles, and any other value's exponent
goes up by one. -/
theorem F64.two_mul_mag_form {p : F64} (hp : F64.mag p < 2 ^ 1023 * 2 ^ 1074) :
    ∃ e m, 2 * F64.mag p = m * 2 ^ e ∧ m ≤ 2 ^ 53 ∧ (e = 0 ∨ 2 ^ 52 ≤ m) ∧ e * 2 ^ 52 + m < 2047 * 2 ^ 52 := by
  have hfrac := F64.fracField_lt p
  unfold F64.mag at hp ⊢
  by_cases hexp : F64.expField p = 0
  · rw [if_pos hexp]
    exact ⟨0, 2 * F64.fracField p, by omega, by omega, .inl rfl, by omega⟩
  · rw [if_neg hexp] at hp ⊢
    have hpow : 2 ^ (52 + (F64.expField p - 1)) < 2 ^ (1023 + 1074) := by
      rw [pow_add, pow_add]
      exact (Nat.mul_le_mul_right _ (Nat.le_add_right _ _)).trans_lt hp
    have hlt := (Nat.pow_lt_pow_iff_right (by decide)).mp hpow
    refine ⟨F64.expField p, 2 ^ 52 + F64.fracField p, ?_, by omega, .inr (by omega), by omega⟩
    rw [Nat.mul_left_comm, ← Nat.pow_succ', Nat.succ_eq_add_one, Nat.sub_add_cancel (by omega)]

/-- The double of a value below 2^1023 in magnitude is the value of a finite pattern. -/
theorem F64.exists_double {p : F64} (hp : F64.mag p < 2 ^ 1023 * 2 ^ 1074) :
    ∃ z : F64, F64.isFinite z = true ∧ F64.scaled z = 2 * F64.scaled p := by
  obtain ⟨e, m, hmag, hm, hnorm, hlow⟩ := F64.two_mul_mag_form hp
  refine ⟨F64.ofSignMag (F64.neg p) (e * 2 ^ 52 + m), F64.isFinite_ofSignMag _ hlow, ?_⟩
  rw [F64.scaled, F64.neg_ofSignMag, F64.mag_ofSignMag _ hm hnorm hlow, ← hmag, F64.scaled]
  split <;> push_cast <;> ring

/-- Below 2^1023 in magnitude, twice a value is exact. -/
theorem F64.mul_two_exact (nan : F64) {p : F64} (hfin : F64.isFinite p = true) (hp : F64.mag p < 2 ^ 1023 * 2 ^ 1074) :
    F64.isFinite (F64.mul nan f64Two p) = true ∧ F64.scaled (F64.mul nan f64Two p) = 2 * F64.scaled p := by
  obtain ⟨z, hz, hdouble⟩ := F64.exists_double hp
  rw [← hdouble]
  refine F64.mul_exact nan (by decide) hfin hz ?_
  rw [scaled_two, hdouble, show (2 : Int) ^ 1075 = 2 * 2 ^ 1074 from pow_succ' 2 1074]
  exact mul_right_comm ..

/-! ### Not-a-number operands -/

section
variable (nan : F64) {a b : F64} (h : F64.isNaN a = true ∨ F64.isNaN b = true)
include h

theorem F64.add_of_isNaN : F64.add nan a b = nan := (F64.ops_of_isNaN nan h).1

theorem F64.mul_of_isNaN : F64.mul nan a b = nan := by
  obtain ⟨-, -, hmul, -⟩ := F64.ops_of_isNaN nan h
  exact hmul

theorem F64.div_of_isNaN : F64.div nan a b = nan := by
  obtain ⟨-, -, -, hdiv⟩ := F64.ops_of_isNaN nan h
  exact hdiv

end

/-- What is not finite is a NaN or an infinity. -/
theorem F64.isFinite_eq_false_iff (p : F64) : F64.isFinite p = false ↔ F64.isNaN p = true ∨ F64.isInf p = true := by
  rw [← Bool.not_eq_true, F64.isFinite_iff]
  cases F64.isNaN p <;> cases F64.isInf p <;> decide

/-- No quotient by a zero is finite. -/
theorem F64.isFinite_div_of_scaled_eq_zero {nan a b : F64} (hnan : F64.isNaN nan = true) (hb : F64.isFinite b = true)
    (hz : F64.scaled b = 0) : F64.isFinite (F64.div nan a b) = false := by
  rw [F64.isFinite_eq_false_iff]
  cases ha : F64.isFinite a with
  | true =>
    rw [F64.div_of_scaled_eq_zero nan ha hb hz]
    split
    · exact .inl hnan
    · exact .inr (F64.isInf_inf _)
  | false =>
    obtain hn | hi := (F64.isFinite_eq_false_iff a).mp ha
    · rw [F64.div_of_isNaN nan (.inl hn)]
      exact .inl hnan
    · obtain ⟨-, -, -, hdiv⟩ := F64.ops_of_isInf_of_isFinite nan hi hb
      rw [hdiv]
      exact .inr (F64.isInf_inf _)

/-- TAN64 gives a NaN on an operand that is not finite (R125). -/
theorem F64.isNaN_tan {p : F64} (h : F64.isFinite p = false) : F64.isNaN (F64.tan p) = true := by
  rw [F64.tan, h]
  exact F64.isNaN_nanPattern _

/-- The Q30 form of a NaN is an invalid 0 (R100). -/
theorem q30sat_of_isNaN {f : F64} (h : F64.isNaN f = true) : q30sat f = { q := 0, inv := true, sat := false } := if_pos h

theorem QCoefs.get_quantize (d : DCoefs) (k : Coef) : (quantize d).get k = (q30sat (d.get k)).q := by
  cases k <;> rfl

/-- Four NaNs convert to four invalid zeros, and none saturates. -/
theorem conversions_of_isNaN {d : DCoefs} (hd : ∀ k, F64.isNaN (d.get k) = true) :
    anyInvalid d = true ∧ anySaturated d = false ∧ ∀ k, (quantize d).get k = 0 := by
  have hb0 : q30sat d.b0 = _ := q30sat_of_isNaN (hd .b0)
  have hb1 : q30sat d.b1 = _ := q30sat_of_isNaN (hd .b1)
  have ha1 : q30sat d.a1 = _ := q30sat_of_isNaN (hd .a1)
  have ha2 : q30sat d.a2 = _ := q30sat_of_isNaN (hd .a2)
  refine ⟨?_, ?_, fun k => ?_⟩
  · simp only [anyInvalid, hb0, Bool.true_or]
  · simp only [anySaturated, hb0, hb1, ha1, ha2, Bool.or_self]
  · rw [QCoefs.get_quantize, q30sat_of_isNaN (hd k)]

/-! ### CCALC's listing (R126) -/

/-- Without a sampling rate TAN64's operand is a quotient by 0. -/
theorem isFinite_ccalcAngle_zero {nan : Nat → F64} (hnan : F64.isNaN (nan 1) = true) (fc : F64) :
    F64.isFinite (ccalcAngle nan fc 0) = false := by
  obtain ⟨hfin, hval⟩ := integersConvertExactly 0 (by decide)
  exact F64.isFinite_div_of_scaled_eq_zero hnan hfin (hval.trans (zero_mul _))

/-- From a NaN as K every line of the listing gives the NaN drawn for it. -/
theorem ccalcFromK_of_isNaN {nan : Nat → F64} (hnan : ∀ j, F64.isNaN (nan j) = true) {k : F64} (hk : F64.isNaN k = true)
    (q : F64) : ccalcFromK nan k q = { b0 := nan 7, b1 := nan 8, a1 := nan 11, a2 := nan 14 } := by
  have hk2 : F64.mul (nan 2) k k = nan 2 := F64.mul_of_isNaN _ (.inl hk)
  have hkq : F64.div (nan 3) k q = nan 3 := F64.div_of_isNaN _ (.inl hk)
  simp only [ccalcFromK, hk2, hkq, F64.add_of_isNaN _ (.inr (hnan _)), F64.div_of_isNaN _ (.inr (hnan _)),
    F64.mul_of_isNaN _ (.inr (hnan _))]

/-- CCALC's own rule: both forms of the listing's coefficients, and the flags of the four conversions. -/
theorem exec_ccalc (s : State) : ∃ t, exec .ccalc s = .next t ∧
    t.d = ccalcCoefs s.drawNaN s.p ∧ t.q = quantize t.d ∧
    t.status.inv = (s.status.inv || anyInvalid t.d) ∧ t.status.sat = (s.status.sat || anySaturated t.d) :=
  ⟨_, rfl, rfl, rfl, rfl, rfl⟩

/-- Settles O43: b1 is the listing's product of 2.0 and b0, which is exact. -/
theorem ccalcDoublesB0Exactly : Obligations.CcalcDoublesB0Exactly := by
  refine ⟨fun nan k q d hd hfin hmag => ?_, fun s => ?_⟩
  · have hb1 : d.b1 = F64.mul (nan 8) f64Two d.b0 := by rw [hd]; rfl
    obtain ⟨hfin1, hdouble⟩ := F64.mul_two_exact (nan 8) hfin hmag
    rw [← hb1] at hfin1 hdouble
    exact ⟨hfin1, hdouble, (doubledCoefficientTolerance d.b0 d.b1 hfin hfin1 hdouble).1⟩
  · obtain ⟨t, hexec, hd, hq, -, -⟩ := exec_ccalc s
    exact ⟨F64.tan (ccalcAngle s.drawNaN s.p.fc s.p.fs), t, hexec, hd, hq⟩

/-- With P.FS = 0 TAN64's operand is not finite, so K is a NaN, and with it all four coefficients. -/
theorem isNaN_ccalcCoefs_of_fs_eq_zero {nan : Nat → F64} (hnan : ∀ j, F64.isNaN (nan j) = true) {p : Params} (hfs : p.fs = 0)
    (k : Coef) : F64.isNaN ((ccalcCoefs nan p).get k) = true := by
  have hangle : F64.isFinite (ccalcAngle nan p.fc p.fs) = false := by
    rw [hfs]
    exact isFinite_ccalcAngle_zero (hnan 1) _
  rw [ccalcCoefs, ccalcFromK_of_isNaN hnan (F64.isNaN_tan hangle)]
  cases k <;> exact hnan _

/-- Settles O44: the four coefficients are NaNs, and so their conversions are invalid zeros. -/
theorem ccalcWithZeroSampleRateIsInvalid : Obligations.CcalcWithZeroSampleRateIsInvalid := by
  intro s hfs
  obtain ⟨t, hexec, hd, hq, hinv, hsat⟩ := exec_ccalc s
  have hnan : ∀ k, F64.isNaN (t.d.get k) = true := by
    rw [hd]
    exact isNaN_ccalcCoefs_of_fs_eq_zero s.isNaN_drawNaN hfs
  obtain ⟨hinvalid, hsaturated, hzero⟩ := conversions_of_isNaN hnan
  rw [hinvalid, Bool.or_true] at hinv
  rw [hsaturated, Bool.or_false] at hsat
  rw [← hq] at hzero
  exact ⟨t, hexec, hinv, hsat, hnan, hzero⟩

/-! ### The parameter registers and the whole listing -/

/-- Settles O41: each command's own rule; OPR[31:0] is OPR's low half, and zero extension keeps the value. -/
theorem parameterCommandsWriteAndReadTheirRegister : Obligations.ParameterCommandsWriteAndReadTheirRegister := by
  intro s
  have hlow : s.opr32 = s.opr.extractLsb' 0 32 := BitVec.setWidth_eq_extractLsb' (by decide)
  refine ⟨rfl, rfl, ?_, rfl, rfl, resOfU32 s.p.fs, rfl, BitVec.toNat_setWidth_of_le (by decide)⟩
  rw [← hlow]
  rfl

/-- Settles O42: the model's listing line by line, with the state's draws as the NaN patterns. -/
theorem ccalcComputesTheListing : Obligations.CcalcComputesTheListing := fun s =>
  ⟨s.drawNaN, s.isNaN_drawNaN, _, _, _, _, _, _, _, _, _, _, _, rfl, rfl, rfl, rfl, rfl, rfl, rfl, rfl, rfl, rfl, rfl,
    s.nanDraws + ccalcOps, rfl⟩

end Sys2Proof.Machine
end

section
/-! PROOFS. STEPI, step by step: its rule under each policy, the factored accumulator, and the two fixed points on zero input
(R141 to R147, R149). -/

namespace Sys2Proof.Machine

/-! ### The rule of STEPI (R147) -/

/-- A sample in RES has the sample's value. -/
@[simp] theorem toInt_resOf16 (v : Sample) : (resOf16 v).toInt = v.toInt := BitVec.toInt_signExtend_of_le (by decide)

section
variable {s : State} {ch : ChIndex} {c : Channel} (hc : s.channels[ch.toNat]? = some c)
include hc

/-- On a channel whose slot is known, `onChannel` does what its body says of that slot. -/
theorem onChannel_of_slot (f : Channel → State) : onChannel ch s f = .next (f c) := by
  rw [onChannel, hc]

/-- A slot written over itself changes nothing. -/
theorem State.setChannel_of_slot : s.setChannel ch c = s := by
  obtain ⟨hlt, rfl⟩ := List.getElem?_eq_some_iff.mp hc
  rw [State.setChannel, List.set_getElem_self]

/-- STEPI is IntStep on the slot, with the sample it emits in RES. -/
theorem exec_stepi {pol : CarryPolicy} (hpol : c.pol = pol) (imm : Sample) :
    exec (.stepi ch imm) s = .next ((s.setChannel ch { c with int := (intStep pol s.q c.int imm).1 }).setRes
      (resOf16 (intStep pol s.q c.int imm).2)) := by
  subst hpol
  exact onChannel_of_slot hc _

/-- Where IntStep keeps the track, STEPI changes RES alone. -/
theorem exec_stepi_of_fixedPoint {pol : CarryPolicy} (hpol : c.pol = pol) {imm out : Sample}
    (hfix : intStep pol s.q c.int imm = (c.int, out)) : exec (.stepi ch imm) s = .next { s with res := resOf16 out } := by
  rw [exec_stepi hc hpol, hfix, State.setChannel_of_slot hc]
  rfl

end

/-- Settles O45: the shifted accumulator and its low 30 bits make up the accumulator, so they are its quotient and remainder. -/
theorem stepiCarriesTheRemainder : Obligations.StepiCarriesTheRemainder := by
  intro s ch c imm hc hpol
  exact ⟨IntTrack.acc s.q c.int imm.toInt, _, _, _, rfl, carry_lossless _, toInt_resOf16 _, exec_stepi hc hpol imm⟩

/-- The value emitted under RoundAndReset is the whole part of the wrapped acc + 2^29 over 2^30 (R144). -/
theorem shiftedAcc_roundAndReset_bounds (acc : BitVec 64) :
    shiftedAcc .roundAndReset acc * 2 ^ 30 ≤ (wrap64 (acc.toInt + 2 ^ 29)).toInt ∧
    (wrap64 (acc.toInt + 2 ^ 29)).toInt < (shiftedAcc .roundAndReset acc + 1) * 2 ^ 30 :=
  ⟨Int.ediv_mul_le _ (by decide), Int.lt_ediv_add_one_mul_self _ (by decide)⟩

/-- Settles O46: the rule of STEPI, with the bounds of the rounded value. -/
theorem stepiRoundsAndResets : Obligations.StepiRoundsAndResets := by
  intro s ch c imm hc hpol
  obtain ⟨hlow, hhigh⟩ := shiftedAcc_roundAndReset_bounds (IntTrack.acc s.q c.int imm.toInt)
  exact ⟨IntTrack.acc s.q c.int imm.toInt, _, _, rfl, hlow, hhigh, toInt_resOf16 _, exec_stepi hc hpol imm⟩

/-! ### The accumulator (R142) -/

/-- A signed word of `w + 1` bits is at most 2^w in magnitude. -/
theorem natAbs_toInt_le {w : Nat} (x : BitVec (w + 1)) : x.toInt.natAbs ≤ 2 ^ w := by
  have hlow : -2 ^ w ≤ x.toInt := x.le_toInt
  have hhigh : x.toInt < 2 ^ w := x.toInt_lt
  zify
  exact abs_le.mpr ⟨hlow, hhigh.le⟩

/-- A product of two signed words is at most the product of their bounds. -/
theorem natAbs_toInt_mul_toInt_le {m n : Nat} (x : BitVec (m + 1)) (y : BitVec (n + 1)) :
    (x.toInt * y.toInt).natAbs ≤ 2 ^ (m + n) := by
  rw [Int.natAbs_mul, Nat.pow_add]
  exact Nat.mul_le_mul (natAbs_toInt_le x) (natAbs_toInt_le y)

/-- wrap_64 of a difference. -/
theorem ofInt_sub {n : Nat} (x y : Int) : BitVec.ofInt n (x - y) = BitVec.ofInt n x - BitVec.ofInt n y := by
  rw [Int.sub_eq_add_neg, BitVec.ofInt_add, BitVec.ofInt_neg, BitVec.sub_eq_add_neg]

/-- The two products with b0 taken together, and the wrap taken of each term. -/
theorem IntTrack.acc_factored (q : QCoefs) (t : IntTrack) (x : Int) :
    IntTrack.acc q t x
      = BitVec.ofNat 64 t.r.toNat + BitVec.ofInt 64 (q.b0.toInt * (x + t.x2.toInt))
        + BitVec.ofInt 64 (q.b1.toInt * t.x1.toInt) - BitVec.ofInt 64 (q.a1.toInt * t.y1.toInt)
        - BitVec.ofInt 64 (q.a2.toInt * t.y2.toInt) := by
  have hsum : (t.r.toNat + q.b0.toInt * x + q.b1.toInt * t.x1.toInt + q.b0.toInt * t.x2.toInt
        - q.a1.toInt * t.y1.toInt - q.a2.toInt * t.y2.toInt : Int)
      = t.r.toNat + q.b0.toInt * (x + t.x2.toInt) + q.b1.toInt * t.x1.toInt
        - q.a1.toInt * t.y1.toInt - q.a2.toInt * t.y2.toInt := by ring
  rw [IntTrack.acc, hsum, wrap64, ofInt_sub, ofInt_sub, BitVec.ofInt_add, BitVec.ofInt_add, BitVec.ofInt_natCast]

/-- Settles O47: the wrap is a ring homomorphism, and each factor is a signed word of 16 or 32 bits. -/
theorem accumulatorFactorsIntoFourProducts : Obligations.AccumulatorFactorsIntoFourProducts := fun q t x =>
  ⟨IntTrack.acc_factored q t x.toInt, natAbs_toInt_mul_toInt_le q.b0 x, natAbs_toInt_mul_toInt_le q.b1 t.x1,
    natAbs_toInt_mul_toInt_le q.b0 t.x2, natAbs_toInt_mul_toInt_le q.a1 t.y1, natAbs_toInt_mul_toInt_le q.a2 t.y2⟩

/-! ### Fixed points on zero input (R149) -/

/-- With every sample in the histories 0, what is left of the accumulator is the feedback of a constant output and the bias. -/
theorem IntTrack.acc_of_constantOutput (q : QCoefs) (y : Word) (r : Remainder) :
    IntTrack.acc q { x1 := 0, x2 := 0, y1 := y, y2 := y, r := r } 0
      = wrap64 (r.toNat - (q.a1.toInt + q.a2.toInt) * y.toInt) := by
  have hzero : (0 : Sample).toInt = 0 := rfl
  simp only [IntTrack.acc, hzero]
  congr 1
  ring

/-- An accumulator that is a bare remainder emits 0 and leaves that remainder (R143). -/
theorem carryRemainder_of_toInt_eq {acc : BitVec 64} {r : Remainder} (h : acc.toInt = r.toNat) :
    shiftedAcc .carryRemainder acc = 0 ∧ nextRemainder .carryRemainder acc = r := by
  have hsplit := carry_lossless acc
  have hr := r.isLt
  have hnext := (nextRemainder .carryRemainder acc).isLt
  exact ⟨by omega, BitVec.eq_of_toNat_eq (by omega)⟩

/-- Two tracks with the same five fields are the same. -/
theorem IntTrack.eq_of_fields {t u : IntTrack} (hx1 : t.x1 = u.x1) (hx2 : t.x2 = u.x2) (hy1 : t.y1 = u.y1) (hy2 : t.y2 = u.y2)
    (hr : t.r = u.r) : t = u := by
  cases t
  cases u
  simp_all only

/-- IntStep on silence: the accumulator is the remainder carried so far. -/
theorem intStep_silence (q : QCoefs) (r : Remainder) :
    intStep .carryRemainder q { x1 := 0, x2 := 0, y1 := 0, y2 := 0, r := r } 0
      = ({ x1 := 0, x2 := 0, y1 := 0, y2 := 0, r := r }, 0) := by
  have hr := r.isLt
  have hacc : (wrap64 (r.toNat - (q.a1.toInt + q.a2.toInt) * (0 : Word).toInt)).toInt = r.toNat := by
    have hzero : (0 : Word).toInt = 0 := rfl
    rw [hzero, Int.mul_zero, Int.sub_zero]
    exact BitVec.toInt_ofInt_eq_self (by decide) (by omega) (by omega)
  obtain ⟨hshift, hnext⟩ := carryRemainder_of_toInt_eq hacc
  have hinput : sampleInt 0 = 0 := rfl
  simp only [intStep, hinput, IntTrack.acc_of_constantOutput, hshift, hnext]
  rfl

/-- Settles O48: silence keeps the track, so STEPI writes RES alone. -/
theorem silenceIsAFixedPoint : Obligations.SilenceIsAFixedPoint := by
  intro s ch c hc hpol hx1 hx2 hy1 hy2
  have htrack : c.int = { x1 := 0, x2 := 0, y1 := 0, y2 := 0, r := c.int.r } :=
    IntTrack.eq_of_fields hx1 hx2 hy1 hy2 rfl
  have hfix : intStep .carryRemainder s.q c.int 0 = (c.int, 0) := by
    rw [htrack]
    exact intStep_silence s.q c.int.r
  exact exec_stepi_of_fixedPoint hc hpol hfix

/-- The rounded value is the integer nearest to acc / 2^30, where the addition of 2^29 does not wrap (R144). -/
theorem shiftedAcc_roundAndReset_eq {acc y : Int} (hlow : -2 ^ 62 ≤ acc) (hhigh : acc < 2 ^ 62)
    (hnear : y * 2 ^ 30 ≤ acc + 2 ^ 29 ∧ acc + 2 ^ 29 < (y + 1) * 2 ^ 30) :
    shiftedAcc .roundAndReset (wrap64 acc) = y := by
  have hacc : (wrap64 acc).toInt = acc := BitVec.toInt_ofInt_eq_self (by decide) (by omega) (by omega)
  have hsum : (wrap64 (acc + 2 ^ 29)).toInt = acc + 2 ^ 29 :=
    BitVec.toInt_ofInt_eq_self (by decide) (by omega) (by omega)
  simp only [shiftedAcc, hacc, hsum]
  omega

/-- A constant output is kept where rounding absorbs the feedback's error: it is the distance of -(a1 + a2) * y from y * 2^30, and
half a unit is 2^29. -/
theorem intStep_constantOutput {q : QCoefs} {y : Int} (hy : -2 ^ 31 ≤ y ∧ y < 2 ^ 31)
    (herror : -2 ^ 29 < (q.a1.toInt + q.a2.toInt + 2 ^ 30) * y ∧ (q.a1.toInt + q.a2.toInt + 2 ^ 30) * y ≤ 2 ^ 29) :
    intStep .roundAndReset q { x1 := 0, x2 := 0, y1 := wrap32 y, y2 := wrap32 y, r := 0 } 0
      = ({ x1 := 0, x2 := 0, y1 := wrap32 y, y2 := wrap32 y, r := 0 }, wrap16 y) := by
  have hy1 : (wrap32 y).toInt = y := BitVec.toInt_ofInt_eq_self (by decide) hy.1 hy.2
  have hfeedback : ((0 : Remainder).toNat : Int) - (q.a1.toInt + q.a2.toInt) * y
      = y * 2 ^ 30 - (q.a1.toInt + q.a2.toInt + 2 ^ 30) * y := by
    have hzero : (0 : Remainder).toNat = 0 := rfl
    rw [hzero]
    ring
  have hround : shiftedAcc .roundAndReset (wrap64 (y * 2 ^ 30 - (q.a1.toInt + q.a2.toInt + 2 ^ 30) * y)) = y :=
    shiftedAcc_roundAndReset_eq (by omega) (by omega) (by omega)
  have hinput : sampleInt 0 = 0 := rfl
  simp only [intStep, hinput, IntTrack.acc_of_constantOutput, hy1, hfeedback, hround]
  rfl

/-- Settles O49: at Fc = 200 the feedback falls short of 2^30 by 722513, and 743 * 722513 is below 2^29. -/
theorem roundingDeadBandAt200Hz : Obligations.RoundingDeadBandAt200Hz := by
  intro s ch c y hc hpol ha1 ha2 hlow hhigh htrack
  have hgap : s.q.a1.toInt + s.q.a2.toInt + 2 ^ 30 = 722513 := by rw [ha1, ha2]; rfl
  have hfix : intStep .roundAndReset s.q c.int 0 = (c.int, wrap16 y) := by
    rw [htrack]
    exact intStep_constantOutput (by omega) (by rw [hgap]; omega)
  have hres : resOf16 (wrap16 y) = BitVec.ofInt 64 y := by
    apply BitVec.eq_of_toInt_eq
    rw [toInt_resOf16, wrap16, BitVec.toInt_ofInt_eq_self (by decide) (by omega) (by omega),
      BitVec.toInt_ofInt_eq_self (by decide) (by omega) (by omega)]
  rw [exec_stepi_of_fixedPoint hc hpol hfix, hres]

end Sys2Proof.Machine
end

section
/-! PROOFS. What STEPI emits on a channel does not depend on the other channels' commands (R148, R28). -/

namespace Sys2Proof.Machine

/-! ### What a command emits -/

/-- What `stepiOutputs` collects from one command: RES after a STEPI on `ch`, nothing after any other command. -/
def emitted (ch : ChIndex) (i : Instr) (t : State) : List DWord :=
  match i with
  | .stepi c _ => if c = ch then [t.res] else []
  | _ => []

theorem emitted_of_channel_ne {ch : ChIndex} {i : Instr} (hne : i.channel? ≠ some ch) (t : State) : emitted ch i t = [] := by
  cases i with
  | stepi c imm => exact if_neg fun hc => hne (congrArg some hc)
  | _ => rfl

theorem stepiOutputs_cons {ch : ChIndex} {i : Instr} {s t : State} (h : exec i s = .next t) (is : List Instr) :
    stepiOutputs ch (i :: is) s = (stepiOutputs ch is t).map (emitted ch i t ++ ·) := by
  have hnone : (stepiOutputs ch is t).map ([] ++ ·) = stepiOutputs ch is t := Option.map_id_apply
  rw [stepiOutputs, h]
  cases i with
  | stepi c imm =>
    by_cases hc : c = ch
    · simp only [emitted, if_pos hc]
      rfl
    · simp only [emitted, if_neg hc, hnone]
  | _ => exact hnone.symm

/-- Every sequence of commands runs to its end. -/
theorem stepiOutputs_completes (ch : ChIndex) (is : List Instr) (s : State) : ∃ out, stepiOutputs ch is s = some out := by
  induction is generalizing s with
  | nil => exact ⟨[], rfl⟩
  | cons i is ih =>
    obtain ⟨t, ht⟩ := exec_completes i s
    obtain ⟨out, hout⟩ := ih t
    exact ⟨emitted ch i t ++ out, by rw [stepiOutputs_cons ht, hout]; rfl⟩

/-! ### What the integer track of a channel depends on -/

/-- The two states agree on all that a command on `ch` reads to advance the integer track: OPR (for WRST), the Q30 coefficients,
and the slot's policy and integer track. The floating tracks may differ, since they depend on the NaN patterns drawn so far. -/
structure SameIntegerSide (ch : ChIndex) (s s' : State) : Prop where
  opr : s.opr = s'.opr
  q : s.q = s'.q
  slot : ∃ c c', s.channels[ch.toNat]? = some c ∧ s'.channels[ch.toNat]? = some c' ∧ c.pol = c'.pol ∧ c.int = c'.int

theorem SameIntegerSide.refl {ch : ChIndex} {s : State} (h : ch.toNat < s.nch) : SameIntegerSide ch s s :=
  ⟨rfl, rfl, _, _, List.getElem?_eq_getElem h, List.getElem?_eq_getElem h, rfl, rfl⟩

/-- A command on another channel changes nothing of it. -/
theorem SameIntegerSide.exec_other {ch d : ChIndex} {i : Instr} {s s' t : State} (h : SameIntegerSide ch s s')
    (hd : i.channel? = some d) (hne : d ≠ ch) (ht : exec i s = .next t) : SameIntegerSide ch t s' := by
  have hi : i ≠ .srst := by rintro rfl; cases hd
  have heff := exec_effect ht
  have hopr : t.opr = s.opr := heff.opr_eq hi
  have hq : t.q = s.q := by
    refine (heff.q_cases hi).resolve_left ?_
    rintro (⟨k, rfl | rfl⟩ | rfl) <;> cases hd
  have hslot : t.channels[ch.toNat]? = s.channels[ch.toNat]? := by
    obtain heq | ⟨d', c, c', hd', -, heq, -⟩ := heff.channels_cases hi
    · rw [heq]
    · obtain rfl : d = d' := Option.some.inj (hd.symm.trans hd')
      rw [heq, List.getElem?_set_ne fun hnat => hne (BitVec.eq_of_toNat_eq hnat)]
  obtain ⟨c, c', hc, hc', hpol, hint⟩ := h.slot
  exact ⟨hopr.trans h.opr, hq.trans h.q, c, c', hslot.trans hc, hc', hpol, hint⟩

section
variable {ch : ChIndex} {s s' : State} (h : SameIntegerSide ch s s')
include h

/-- Slots with the same integer side, written to both states. -/
theorem SameIntegerSide.setSlot {t t' : State} {d d' : Channel}
    (ht : t.opr = s.opr ∧ t.q = s.q ∧ t.channels = s.channels.set ch.toNat d)
    (ht' : t'.opr = s'.opr ∧ t'.q = s'.q ∧ t'.channels = s'.channels.set ch.toNat d')
    (hpol : d.pol = d'.pol) (hint : d.int = d'.int) : SameIntegerSide ch t t' := by
  obtain ⟨hopr, hq, hchannels⟩ := ht
  obtain ⟨hopr', hq', hchannels'⟩ := ht'
  obtain ⟨c, c', hc, hc', -, -⟩ := h.slot
  obtain ⟨hlt, -⟩ := List.getElem?_eq_some_iff.mp hc
  obtain ⟨hlt', -⟩ := List.getElem?_eq_some_iff.mp hc'
  refine ⟨hopr.trans (h.opr.trans hopr'.symm), hq.trans (h.q.trans hq'.symm), d, d', ?_, ?_, hpol, hint⟩
  · rw [hchannels, List.getElem?_set_self hlt]
  · rw [hchannels', List.getElem?_set_self hlt']

/-- WRST writes the same value to the same field (R184). -/
theorem SameIntegerSide.writeField_int {c c' : Channel} (hint : c.int = c'.int) (f : Field) :
    (c.writeField f s).int = (c'.writeField f s').int := by
  cases f <;> simp only [Channel.writeField, State.opr16, State.opr32, State.opr30, hint, h.opr]

/-- IntStep is the same on both slots, so a STEPI on `ch` emits the same; no other command emits. -/
theorem SameIntegerSide.emitted_eq {i : Instr} {t t' : State} (ht : exec i s = .next t) (ht' : exec i s' = .next t') :
    emitted ch i t = emitted ch i t' := by
  cases i with
  | stepi d imm =>
    by_cases hd : d = ch
    · subst hd
      obtain ⟨c, c', hc, hc', hpol, hint⟩ := h.slot
      obtain rfl := Host.Outcome.next.inj ((exec_stepi hc hpol imm).symm.trans ht)
      obtain rfl := Host.Outcome.next.inj ((exec_stepi hc' rfl imm).symm.trans ht')
      simp only [emitted, State.setRes_res, h.q, hint]
    · simp only [emitted, if_neg hd]
  | _ => rfl

/-- The same command on `ch` keeps the agreement: it writes to both slots the same integer track. -/
theorem SameIntegerSide.exec_same {i : Instr} (hi : i.channel? = some ch) :
    ∃ t t', exec i s = .next t ∧ exec i s' = .next t' ∧ SameIntegerSide ch t t' := by
  obtain ⟨c, c', hc, hc', hpol, hint⟩ := h.slot
  have hstep : ∀ imm, (intStep c.pol s.q c.int imm).1 = (intStep c'.pol s'.q c'.int imm).1 := fun imm => by
    rw [hpol, h.q, hint]
  cases i with
  | clrch d =>
    cases hi
    exact ⟨_, _, onChannel_of_slot hc _, onChannel_of_slot hc' _, h.setSlot ⟨rfl, rfl, rfl⟩ ⟨rfl, rfl, rfl⟩ hpol rfl⟩
  | stepi d imm | stepd d imm =>
    cases hi
    exact ⟨_, _, onChannel_of_slot hc _, onChannel_of_slot hc' _,
      h.setSlot ⟨rfl, rfl, rfl⟩ ⟨rfl, rfl, rfl⟩ hpol (hstep imm)⟩
  | stepf d imm =>
    cases hi
    exact ⟨_, _, onChannel_of_slot hc _, onChannel_of_slot hc' _, h.setSlot ⟨rfl, rfl, rfl⟩ ⟨rfl, rfl, rfl⟩ hpol hint⟩
  | rdst d f =>
    cases hi
    exact ⟨_, _, onChannel_of_slot hc _, onChannel_of_slot hc' _, h.opr, h.q, h.slot⟩
  | wrst d f =>
    cases hi
    have hpol' : (c.writeField f s).pol = (c'.writeField f s').pol := by
      rw [Channel.writeField_pol, Channel.writeField_pol, hpol]
    exact ⟨_, _, onChannel_of_slot hc _, onChannel_of_slot hc' _,
      h.setSlot ⟨rfl, rfl, rfl⟩ ⟨rfl, rfl, rfl⟩ hpol' (h.writeField_int hint f)⟩
  | _ => cases hi

end

/-! ### Leaving out the other channels' commands -/

/-- The outputs on `ch` are those of its own commands, run alone from any state that agrees on `ch`. -/
theorem stepiOutputs_filter {ch : ChIndex} {is : List Instr} (his : ∀ i ∈ is, i.channel? ≠ none) {s s' : State}
    (h : SameIntegerSide ch s s') :
    stepiOutputs ch is s = stepiOutputs ch (is.filter fun i => decide (i.channel? = some ch)) s' := by
  induction is generalizing s s' with
  | nil => rfl
  | cons i is ih =>
    obtain ⟨hi, his⟩ := List.forall_mem_cons.mp his
    by_cases hch : i.channel? = some ch
    · obtain ⟨t, t', ht, ht', hside⟩ := h.exec_same hch
      rw [List.filter_cons_of_pos (by simpa using hch), stepiOutputs_cons ht, stepiOutputs_cons ht', h.emitted_eq ht ht',
        ih his hside]
    · obtain ⟨t, ht⟩ := exec_completes i s
      obtain ⟨d, hd⟩ := Option.ne_none_iff_exists'.mp hi
      have hside : SameIntegerSide ch t s' := h.exec_other hd (fun hdc => hch (hdc ▸ hd)) ht
      rw [List.filter_cons_of_neg (by simpa using hch), stepiOutputs_cons ht, emitted_of_channel_ne hch, ← ih his hside]
      exact Option.map_id_apply

/-- Settles O50: both sequences emit what their common commands on the channel emit alone. -/
theorem outputsIgnoreOtherChannels : Obligations.OutputsIgnoreOtherChannels := by
  intro ch s p p' hlt hp hp' hfilter
  have hside : SameIntegerSide ch s s := .refl hlt
  have hrun : stepiOutputs ch p s = stepiOutputs ch p' s := by
    rw [stepiOutputs_filter (fun i hi => (hp i hi).1) hside, hfilter, ← stepiOutputs_filter (fun i hi => (hp' i hi).1) hside]
  obtain ⟨out, hout⟩ := stepiOutputs_completes ch p s
  exact ⟨out, hout, hrun.symm.trans hout⟩

end Sys2Proof.Machine
end

section
/-! PROOFS. Cvt16 and the floating filter: the rules of STEPF and STEPD, and how values that are not finite propagate
(R160 to R165). -/

namespace Sys2Proof.Machine

/-! ### Cvt16 (R160) -/

/-- Cvt16 answers an invalid 0 on what is not finite. -/
theorem cvt16_of_not_isFinite {v : F64} (h : F64.isFinite v = false) : cvt16 v = (0, true) := by
  obtain ⟨-, hcvt⟩ | ⟨hfin, -, -⟩ | ⟨hfin, -, -, -⟩ := cvt16_cases v
  · exact hcvt
  · exact absurd (h.symm.trans hfin) Bool.false_ne_true
  · exact absurd (h.symm.trans hfin) Bool.false_ne_true

/-- An integer part outside int32 is invalid. -/
theorem cvt16_of_outside {v : F64} (ht : F64.truncScaled v 0 < -2 ^ 31 ∨ 2 ^ 31 - 1 < F64.truncScaled v 0) :
    cvt16 v = (0, true) := by
  obtain ⟨-, hcvt⟩ | ⟨-, -, hcvt⟩ | ⟨-, hlow, hhigh, -⟩ := cvt16_cases v
  · exact hcvt
  · exact hcvt
  · omega

/-- An integer part inside int32 is wrapped to 16 bits. -/
theorem cvt16_of_inside {v : F64} (h : F64.isFinite v = true) (hlow : -2 ^ 31 ≤ F64.truncScaled v 0)
    (hhigh : F64.truncScaled v 0 ≤ 2 ^ 31 - 1) : cvt16 v = (wrap16 (F64.truncScaled v 0), false) := by
  obtain ⟨hnot, -⟩ | ⟨-, hout, -⟩ | ⟨-, -, -, hcvt⟩ := cvt16_cases v
  · exact absurd (hnot.symm.trans h) Bool.false_ne_true
  · omega
  · exact hcvt

/-- Settles O56: t is the model's truncation, whose magnitude is the whole part of the value's. -/
theorem cvt16TruncatesAndWraps : Obligations.Cvt16TruncatesAndWraps := by
  intro v
  refine ⟨fun h => cvt16_of_not_isFinite ((F64.isFinite_eq_false_iff v).mpr h), fun hfin => ?_⟩
  have hpos : 0 < 2 ^ 1074 := by positivity
  have habs : (F64.truncScaled v 0).natAbs = F64.mag v / 2 ^ 1074 := by
    rw [F64.natAbs_truncScaled, Nat.pow_zero, Nat.mul_one]
  refine ⟨F64.truncScaled v 0, ?_, ?_, F64.truncScaled_mul_scaled_nonneg v 0, cvt16_of_outside, cvt16_of_inside hfin⟩
  · rw [habs]
    exact Nat.div_mul_le_self _ _
  · rw [habs]
    exact Nat.lt_mul_of_div_lt (Nat.lt_succ_self _) hpos

/-! ### The rules of STEPF and STEPD (R162, R165) -/

/-- The state after a command that runs one FltStep: slot `ch` written, `v` in RES, INV noted, the draws used up. -/
def State.afterFltStep (s : State) (ch : ChIndex) (c : Channel) (v : DWord) (inv : Bool) : State :=
  (((s.setChannel ch c).setRes v).noteFlags inv false).spendFltDraws

section
variable (s : State) (ch : ChIndex) (c c' : Channel) (v w : DWord) (inv : Bool)

@[simp] theorem State.afterFltStep_res : (s.afterFltStep ch c v inv).res = v := rfl

@[simp] theorem State.afterFltStep_channels : (s.afterFltStep ch c v inv).channels = s.channels.set ch.toNat c := rfl

/-- The whole of it, field by field: FltStep reports INV alone. -/
theorem State.afterFltStep_eq : s.afterFltStep ch c v inv =
    { s with
      res := v
      status := { ill := s.status.ill, inv := s.status.inv || inv, sat := s.status.sat }
      channels := s.channels.set ch.toNat c
      nanDraws := s.nanDraws + fltOps } := by
  have hnote : s.status.note inv false = { ill := s.status.ill, inv := s.status.inv || inv, sat := s.status.sat } := by
    rw [Status.note, Bool.or_false]
  rw [← hnote]
  rfl

/-- Another RES over it. -/
theorem State.afterFltStep_withRes : { s.afterFltStep ch c v inv with res := w } = s.afterFltStep ch c w inv := rfl

/-- The slot and RES written once more after it. -/
theorem State.afterFltStep_setChannel_setRes :
    ((s.afterFltStep ch c v inv).setChannel ch c').setRes w = s.afterFltStep ch c' w inv := by
  simp only [State.afterFltStep, State.setChannel, State.setRes, State.noteFlags, State.spendFltDraws, List.set_set]

/-- The slot and RES written before it. -/
theorem State.setChannel_setRes_afterFltStep :
    ((s.setChannel ch c).setRes v).afterFltStep ch c' w inv = s.afterFltStep ch c' w inv := by
  simp only [State.afterFltStep, State.setChannel, State.setRes, List.set_set]

end

section
variable {s : State} {ch : ChIndex} {c : Channel} (hc : s.channels[ch.toNat]? = some c) {imm : Sample}
  {rf : FltResult} (hrf : rf = fltStep s.drawNaN s.d c.flt imm)
include hc hrf

/-- STEPF is FltStep on the slot, with the sample it emits in RES. -/
theorem exec_stepf :
    exec (.stepf ch imm) s = .next (s.afterFltStep ch { c with flt := rf.track } (resOf16 rf.out) rf.inv) := by
  subst hrf
  exact onChannel_of_slot hc _

/-- STEPD is FltStep and IntStep on the slot, with the wrapped difference of the samples in RES. -/
theorem exec_stepd {ri : IntTrack × Sample} (hri : ri = intStep c.pol s.q c.int imm) :
    exec (.stepd ch imm) s = .next (s.afterFltStep ch { c with int := ri.1, flt := rf.track }
      (resOf16 (wrap16 (rf.out.toInt - ri.2.toInt))) rf.inv) := by
  subst hrf hri
  exact onChannel_of_slot hc _

end

/-- Settles O57: the rule of STEPF, with the state's draws as the NaN patterns. -/
theorem stepfComputesTheListing : Obligations.StepfComputesTheListing := by
  intro s ch c imm hc
  refine ⟨s.drawNaN, s.isNaN_drawNaN, _, _, _, _, _, _, _, rfl, rfl, rfl, rfl, rfl, rfl, rfl,
    resOf16 (fltStep s.drawNaN s.d c.flt imm).out, s.nanDraws + fltOps, toInt_resOf16 _, ?_⟩
  rw [exec_stepf hc rfl, State.afterFltStep_eq]
  rfl

/-! ### Values that are not finite (R161) -/

theorem F64.isFinite_eq_false_of_isNaN {p : F64} (h : F64.isNaN p = true) : F64.isFinite p = false :=
  (F64.isFinite_eq_false_iff p).mpr (.inl h)

theorem F64.isFinite_eq_false_of_isInf {p : F64} (h : F64.isInf p = true) : F64.isFinite p = false :=
  (F64.isFinite_eq_false_iff p).mpr (.inr h)

/-- Every pattern is a NaN, an infinity or finite. -/
theorem F64.class_cases (p : F64) : F64.isNaN p = true ∨ F64.isInf p = true ∨ F64.isFinite p = true := by
  cases h : F64.isFinite p with
  | true => exact .inr (.inr rfl)
  | false => exact ((F64.isFinite_eq_false_iff p).mp h).imp_right .inl

/-- The classes of two operands that are not both finite. -/
theorem F64.classes_of_not_isFinite {a b : F64} (h : F64.isFinite a = false ∨ F64.isFinite b = false) :
    (F64.isNaN a = true ∨ F64.isNaN b = true) ∨ (F64.isInf a = true ∧ F64.isFinite b = true) ∨
    (F64.isFinite a = true ∧ F64.isInf b = true) ∨ (F64.isInf a = true ∧ F64.isInf b = true) := by
  obtain ha | ha | ha := F64.class_cases a
  · exact .inl (.inl ha)
  · obtain hb | hb | hb := F64.class_cases b
    · exact .inl (.inr hb)
    · exact .inr (.inr (.inr ⟨ha, hb⟩))
    · exact .inr (.inl ⟨ha, hb⟩)
  · obtain hb | hb := (F64.isFinite_eq_false_iff b).mp (h.resolve_left (by simp [ha]))
    · exact .inl (.inr hb)
    · exact .inr (.inr (.inl ⟨ha, hb⟩))

/-- A sum, a difference and a product with an operand that is not finite are not finite. -/
theorem F64.ops_of_not_isFinite {nan a b : F64} (hnan : F64.isNaN nan = true)
    (h : F64.isFinite a = false ∨ F64.isFinite b = false) :
    F64.isFinite (F64.add nan a b) = false ∧ F64.isFinite (F64.sub nan a b) = false ∧
    F64.isFinite (F64.mul nan a b) = false := by
  have hnan' := F64.isFinite_eq_false_of_isNaN hnan
  have hinf : ∀ neg, F64.isFinite (F64.inf neg) = false := fun neg => F64.isFinite_eq_false_of_isInf (F64.isInf_inf neg)
  obtain hn | ⟨ha, hb⟩ | ⟨ha, hb⟩ | ⟨ha, hb⟩ := F64.classes_of_not_isFinite h
  · obtain ⟨hadd, hsub, hmul, -⟩ := F64.ops_of_isNaN nan hn
    rw [hadd, hsub, hmul]
    exact ⟨hnan', hnan', hnan'⟩
  · obtain ⟨hadd, hsub, hmul, -⟩ := F64.ops_of_isInf_of_isFinite nan ha hb
    have ha' := F64.isFinite_eq_false_of_isInf ha
    rw [hadd, hsub, hmul, apply_ite F64.isFinite, hnan', hinf, ite_self]
    exact ⟨ha', ha', rfl⟩
  · obtain ⟨hadd, hsub, hmul, -⟩ := F64.ops_of_isFinite_of_isInf nan ha hb
    rw [hadd, hsub, hmul, apply_ite F64.isFinite, hnan', hinf, hinf, ite_self]
    exact ⟨F64.isFinite_eq_false_of_isInf hb, rfl, rfl⟩
  · obtain ⟨hadd, hsub, hmul, -⟩ := F64.ops_of_isInf_of_isInf nan ha hb
    have ha' := F64.isFinite_eq_false_of_isInf ha
    rw [hadd, hsub, hmul, apply_ite F64.isFinite, apply_ite F64.isFinite, hnan', ha', hinf, ite_self]
    exact ⟨rfl, rfl, rfl⟩

/-- From a history field that is not finite, through its product, along the sum: the accumulator is not finite. -/
theorem FltTrack.isFinite_acc_eq_false {nan : Nat → F64} (hnan : ∀ j, F64.isNaN (nan j) = true) (d : DCoefs) {t : FltTrack}
    (xf : F64) (h : F64.isFinite t.xf1 = false ∨ F64.isFinite t.xf2 = false ∨ F64.isFinite t.yf1 = false ∨
      F64.isFinite t.yf2 = false) :
    F64.isFinite (FltTrack.acc nan d t xf) = false := by
  have hmul (j) {a b} (hb : F64.isFinite b = false) : F64.isFinite (F64.mul (nan j) a b) = false := by
    obtain ⟨-, -, hmul⟩ := F64.ops_of_not_isFinite (a := a) (hnan j) (.inr hb)
    exact hmul
  have hadd (j) {a b} (hab : F64.isFinite a = false ∨ F64.isFinite b = false) : F64.isFinite (F64.add (nan j) a b) = false := by
    obtain ⟨hadd, -, -⟩ := F64.ops_of_not_isFinite (hnan j) hab
    exact hadd
  have hsub (j) {a b} (hab : F64.isFinite a = false ∨ F64.isFinite b = false) : F64.isFinite (F64.sub (nan j) a b) = false := by
    obtain ⟨-, hsub, -⟩ := F64.ops_of_not_isFinite (hnan j) hab
    exact hsub
  obtain hx1 | hx2 | hy1 | hy2 := h
  · exact hsub 8 (.inl (hsub 7 (.inl (hadd 6 (.inl (hadd 5 (.inr (hmul 1 hx1))))))))
  · exact hsub 8 (.inl (hsub 7 (.inl (hadd 6 (.inr (hmul 2 hx2))))))
  · exact hsub 8 (.inl (hsub 7 (.inr (hmul 3 hy1))))
  · exact hsub 8 (.inr (hmul 4 hy2))

/-- Settles O58: the accumulator, which yf1 keeps, is not finite, and so its conversion is an invalid 0. -/
theorem nonFiniteHistoryPropagates : Obligations.NonFiniteHistoryPropagates := by
  intro s ch c imm hc h
  obtain ⟨hlt, -⟩ := List.getElem?_eq_some_iff.mp hc
  have hacc := FltTrack.isFinite_acc_eq_false s.isNaN_drawNaN s.d (F64.ofInt imm.toInt) h
  have hcvt := cvt16_of_not_isFinite hacc
  refine ⟨_, _, exec_stepf hc rfl, List.getElem?_set_self hlt, hacc, ?_, ?_⟩
  · rw [State.afterFltStep_res, fltStep_out, hcvt]
    rfl
  · rw [State.afterFltStep_eq, fltStep_inv, hcvt]
    exact Bool.or_true _

/-! ### STEPD as STEPF and STEPI (R165) -/

section
variable {s : State} {ch : ChIndex} {c : Channel} (hc : s.channels[ch.toNat]? = some c) {imm : Sample}
  {ri : IntTrack × Sample} {rf : FltResult}
include hc

/-- STEPI after a FltStep on the slot: IntStep reads nothing that the FltStep wrote. -/
theorem exec_stepi_afterFltStep (hri : ri = intStep c.pol s.q c.int imm) (t : FltTrack) (v : DWord) (inv : Bool) :
    exec (.stepi ch imm) (s.afterFltStep ch { c with flt := t } v inv) =
      .next (s.afterFltStep ch { c with int := ri.1, flt := t } (resOf16 ri.2) inv) := by
  obtain ⟨hlt, -⟩ := List.getElem?_eq_some_iff.mp hc
  have hslot : (s.afterFltStep ch { c with flt := t } v inv).channels[ch.toNat]? = some { c with flt := t } :=
    List.getElem?_set_self hlt
  rw [exec_stepi hslot rfl, State.afterFltStep_setChannel_setRes, hri]
  rfl

/-- STEPF after an IntStep on the slot: FltStep reads nothing that the IntStep wrote. -/
theorem exec_stepf_after_intStep (hrf : rf = fltStep s.drawNaN s.d c.flt imm) (t : IntTrack) (v : DWord) :
    exec (.stepf ch imm) ((s.setChannel ch { c with int := t }).setRes v) =
      .next (s.afterFltStep ch { c with int := t, flt := rf.track } (resOf16 rf.out) rf.inv) := by
  obtain ⟨hlt, -⟩ := List.getElem?_eq_some_iff.mp hc
  have hslot : ((s.setChannel ch { c with int := t }).setRes v).channels[ch.toNat]? = some { c with int := t } :=
    State.setChannel_self _ hlt
  rw [exec_stepf hslot hrf, State.setChannel_setRes_afterFltStep]

end

/-- Settles O59: in either order both tracks advance as in STEPD, and RES has the values of the two samples. -/
theorem stepdIsStepfAndStepi : Obligations.StepdIsStepfAndStepi := by
  intro s ch imm hlt
  obtain ⟨c, hc⟩ : ∃ c, s.channels[ch.toNat]? = some c := ⟨_, List.getElem?_eq_getElem hlt⟩
  refine ⟨_, _, _, _, _, exec_stepf hc rfl, exec_stepi_afterFltStep hc rfl _ _ _, exec_stepi hc rfl imm,
    exec_stepf_after_intStep hc rfl _ _, ?_,
    (exec_stepd hc rfl rfl).trans (congrArg Host.Outcome.next (State.afterFltStep_withRes ..).symm), ?_⟩
  · rw [State.afterFltStep_channels, State.afterFltStep_channels]
  · rw [State.afterFltStep_res, State.afterFltStep_res, toInt_resOf16, toInt_resOf16, toInt_resOf16]
    rfl

end Sys2Proof.Machine
end

section
/-! PROOFS. The control and channel-state commands: NOP, CLRCH, RDST, WRST (R180, R182 to R184). -/

namespace Sys2Proof.Machine

/-! ### The low bits of OPR and a remainder in RES (R9, R184) -/

theorem State.opr16_eq_extractLsb' (s : State) : s.opr16 = s.opr.extractLsb' 0 16 :=
  BitVec.setWidth_eq_extractLsb' (by decide)

theorem State.opr32_eq_extractLsb' (s : State) : s.opr32 = s.opr.extractLsb' 0 32 :=
  BitVec.setWidth_eq_extractLsb' (by decide)

theorem State.opr30_eq_extractLsb' (s : State) : s.opr30 = s.opr.extractLsb' 0 30 :=
  BitVec.setWidth_eq_extractLsb' (by decide)

/-- A remainder in RES has the remainder's unsigned value. -/
@[simp] theorem toNat_resOf30 (v : Remainder) : (resOf30 v).toNat = v.toNat := BitVec.toNat_setWidth_of_le (by decide)

/-! ### The slot written -/

/-- The slot after WRST, field by field: the named field holds the low bits of OPR, each other is as it was (R184). -/
theorem Channel.writeField_eq (c : Channel) (f : Field) (s : State) : c.writeField f s =
    { pol := c.pol
      int :=
        { x1 := if f = .x1 then s.opr.extractLsb' 0 16 else c.int.x1
          x2 := if f = .x2 then s.opr.extractLsb' 0 16 else c.int.x2
          y1 := if f = .y1 then s.opr.extractLsb' 0 32 else c.int.y1
          y2 := if f = .y2 then s.opr.extractLsb' 0 32 else c.int.y2
          r := if f = .r then s.opr.extractLsb' 0 30 else c.int.r }
      flt :=
        { xf1 := if f = .xf1 then s.opr else c.flt.xf1
          xf2 := if f = .xf2 then s.opr else c.flt.xf2
          yf1 := if f = .yf1 then s.opr else c.flt.yf1
          yf2 := if f = .yf2 then s.opr else c.flt.yf2 } } := by
  cases f with
  | x1 | x2 => rw [Channel.writeField, State.opr16_eq_extractLsb']; rfl
  | y1 | y2 => rw [Channel.writeField, State.opr32_eq_extractLsb']; rfl
  | r => rw [Channel.writeField, State.opr30_eq_extractLsb']; rfl
  | xf1 | xf2 | yf1 | yf2 => rfl

/-- A command that only replaces its slot changes the list of channels alone, and in it that slot alone (R28). -/
theorem onChannel_setChannel_of_slot {s : State} {ch : ChIndex} {c : Channel} (hc : s.channels[ch.toNat]? = some c)
    (f : Channel → Channel) :
    ∃ cs : List Channel, onChannel ch s (fun c => s.setChannel ch (f c)) = .next { s with channels := cs } ∧
      cs.length = s.nch ∧ (∀ d, d ≠ ch.toNat → cs[d]? = s.channels[d]?) ∧ cs[ch.toNat]? = some (f c) := by
  obtain ⟨hlt, -⟩ := List.getElem?_eq_some_iff.mp hc
  exact ⟨_, onChannel_of_slot hc _, State.nch_setChannel s ch (f c), fun _ => State.setChannel_other (f c),
    State.setChannel_self (f c) hlt⟩

/-! ### The commands -/

/-- Settles O33, type by type: each extension keeps the field's value, and a pattern goes to RES as it is. -/
theorem rdstReturnsTheField : Obligations.RdstReturnsTheField := by
  intro s ch c hc f
  refine ⟨c.readField f, onChannel_of_slot hc _, ?_⟩
  cases f with
  | x1 | x2 => simp [Channel.readField, toInt_resOf16]
  | y1 | y2 => simp [Channel.readField, toInt_resOf32]
  | r => simp [Channel.readField, toNat_resOf30]
  | xf1 | xf2 | yf1 | yf2 => simp [Channel.readField]

/-- Settles O34: WRST replaces its slot, and the slot written is known field by field. -/
theorem wrstWritesOneFieldFromOpr : Obligations.WrstWritesOneFieldFromOpr := by
  intro s ch c hc f
  obtain ⟨cs, hexec, hlen, hother, hslot⟩ := onChannel_setChannel_of_slot hc (·.writeField f s)
  exact ⟨cs, _, hexec, hlen, hother, hslot.trans (congrArg some (c.writeField_eq f s)),
    rfl, rfl, rfl, rfl, rfl, rfl, rfl, rfl, rfl, rfl⟩

/-- Settles O31: NOP answers the state it was given. -/
theorem nopLeavesTheWholeState : Obligations.NopLeavesTheWholeState := fun _ => rfl

/-- Settles O32: CLRCH replaces its slot by one with both tracks at reset and the same policy. -/
theorem clrchZeroesItsSlotAlone : Obligations.ClrchZeroesItsSlotAlone := by
  intro s ch c hc
  obtain ⟨cs, hexec, hlen, hother, hslot⟩ :=
    onChannel_setChannel_of_slot hc ({ · with int := IntTrack.reset, flt := FltTrack.reset })
  exact ⟨cs, hexec, hlen, hother, _, hslot, rfl, rfl, rfl, rfl, rfl, rfl, rfl, rfl, rfl, rfl⟩

end Sys2Proof.Machine
end

section
/-! PROOFS. IllegalCommand and the sticky flags: what an illegal word or term does, and which steps set a flag (R200 to R204). -/

namespace Sys2Proof.Machine

/-! ### Illegal words (R88, R200) -/

/-- A word is illegal exactly where it decodes to no command. -/
theorem legalWord_eq_false_iff {nch : Nat} {w : Word} : legalWord nch w = false ↔ decode nch w = none := by
  rw [← Bool.not_eq_true, ← wordsDecodeExactlyWhereLegal nch w, not_exists, Option.eq_none_iff_forall_ne_some]

/-- Settles O4: such a word decodes to no command, so the write to CMD is IllegalCommand. -/
theorem illegalWordSetsIllAndNothingElse : Obligations.IllegalWordSetsIllAndNothingElse := by
  intro s w rest hp hillegal
  have hdecode : decode (State.nch { s with pending := rest }) w = none := legalWord_eq_false_iff.mp hillegal
  rw [step_of_pending hp, portStep, portWrite_of_cmd (by decide) rfl, runWord, hdecode]
  rfl

/-! ### Legal commands and illegal terms (R57, R204) -/

/-- A term that no legal word stands for names `b2` in a load or a channel the engine lacks, and is IllegalCommand (log 10). -/
theorem exec_of_wf_false {i : Instr} {s : State} (hwf : i.wf s.nch = false) : exec i s = .next s.raiseIllegal := by
  cases i with
  | nop | srst | cvt | rdq | rdd | setfc | setq | setfs | ccalc | rdp => exact absurd hwf nofun
  | ldq k | ldd k => exact if_neg (Bool.eq_false_iff.mp hwf)
  | clrch ch | stepi ch imm | stepf ch imm | stepd ch imm | rdst ch f | wrst ch f =>
    exact onChannel_of_ge (not_lt.mp (of_decide_eq_false hwf))

/-- A command reads no further event and answers no read (R57). -/
theorem CommandEffect.sameHostSide {s t : State} {i : Instr} (h : CommandEffect s i t) : SameHostSide s t := by
  cases h <;> exact ⟨rfl, rfl⟩

/-- A legal command never sets ILL. -/
theorem CommandEffect.ill_of_wf {s t : State} {i : Instr} (h : CommandEffect s i t) (hwf : i.wf s.nch = true)
    (hset : t.status.ill = true) : s.status.ill = true := by
  cases h with
  | illegal i hill => exact absurd hwf (Bool.eq_false_iff.mp hill)
  | srst => exact absurd hset nofun
  | _ => exact hset

/-- Settles O5: every command completes, so a legal one has its effect, and a term that is not legal is IllegalCommand. -/
theorem legalCommandsCompleteAndOthersAreIllegal : Obligations.LegalCommandsCompleteAndOthersAreIllegal := by
  intro i s
  refine ⟨fun hwf => ?_, exec_of_wf_false⟩
  obtain ⟨t, hexec⟩ := exec_completes i s
  have heff : CommandEffect s i t := exec_effect hexec
  exact ⟨t, hexec, heff.sameHostSide, exec_nch hexec, heff.ill_of_wf hwf⟩

/-! ### Which steps set a flag (R201, R203) -/

/-- The command that a step runs is legal on the engine. -/
theorem State.wf_of_runs {s : State} {i : Instr} (h : s.runs i) : i.wf s.nch = true := by
  obtain ⟨w, -, hdecode⟩ := h
  exact (decode_eq_some_iff.mp hdecode).2

section
variable {s t : State} {i : Instr} (h : CommandEffect s i t)
include h

/-- A command that sets INV is one that R201 lists. -/
theorem CommandEffect.raisesInv_of_set (hclear : s.status.inv = false) (hset : t.status.inv = true) :
    i.raisesInv = true := by
  cases h with
  | cvt | ldd | ccalc | stepf | stepd => rfl
  | srst => exact absurd hset nofun
  | _ => exact absurd hset (Bool.eq_false_iff.mp hclear)

/-- A command that sets SAT is one that R201 lists: Cvt16 of STEPF and STEPD reports INV alone. -/
theorem CommandEffect.raisesSat_of_set (hclear : s.status.sat = false) (hset : t.status.sat = true) :
    i.raisesSat = true := by
  cases h with
  | cvt | ldd | ccalc => rfl
  | srst => exact absurd hset nofun
  | stepf | stepd => exact absurd ((Bool.or_false _).symm.trans hset) (Bool.eq_false_iff.mp hclear)
  | _ => exact absurd hset (Bool.eq_false_iff.mp hclear)

end

theorem Status.reset_keptIn (f : Status) : Status.reset.KeptIn f := ⟨nofun, nofun, nofun⟩

/-- A write of STATUS sets no flag (R55). -/
theorem Status.clear_keptIn (f : Status) (w : Word) : (f.clear w).KeptIn f :=
  ⟨Bool.and_elim_left, Bool.and_elim_left, Bool.and_elim_left⟩

/-- A step that runs no command sets no flag, but for ILL where it serves an illegal word. -/
theorem StepEffect.set_cases {s t : State} (h : StepEffect s t) :
    (∃ i rest, s.runs i ∧ CommandEffect { s with pending := rest } i t) ∨
    (∃ w, s.serves (.write 0x0C w) ∧ legalWord s.nch w = false ∧ t.status = { s.status with ill := true }) ∨
    t.status.KeptIn s.status := by
  cases h with
  | command i rest _ hruns heff => exact .inl ⟨i, rest, hruns, heff⟩
  | illegalWord w rest hserves hdecode => exact .inr (.inl ⟨w, hserves, legalWord_eq_false_iff.mpr hdecode, rfl⟩)
  | reset => exact .inr (.inr s.status.reset_keptIn)
  | writeStatus w => exact .inr (.inr (s.status.clear_keptIn w))
  | _ => exact .inr (.inr s.status.keptIn_refl)

/-- Settles O25: a command that a step runs is legal, so it leaves ILL clear, and sets INV and SAT only where R201 lists it; an
illegal word sets ILL alone; no other event sets a flag. -/
theorem flagsAreSetOnlyByTheListedCommands : Obligations.FlagsAreSetOnlyByTheListedCommands := by
  intro s t hstep
  obtain ⟨i, rest, hruns, heff⟩ | ⟨w, hserves, hillegal, hstatus⟩ | ⟨hill, hinv, hsat⟩ := (step_effect hstep).set_cases
  · have hwf : i.wf s.nch = true := State.wf_of_runs hruns
    exact ⟨fun h h' => absurd (heff.ill_of_wf hwf h') (Bool.eq_false_iff.mp h),
      fun h h' => ⟨i, hruns, heff.raisesInv_of_set h h'⟩, fun h h' => ⟨i, hruns, heff.raisesSat_of_set h h'⟩⟩
  · rw [hstatus]
    exact ⟨fun _ _ => ⟨w, hserves, hillegal⟩, fun h h' => absurd h' (Bool.eq_false_iff.mp h),
      fun h h' => absurd h' (Bool.eq_false_iff.mp h)⟩
  · exact ⟨fun h h' => absurd (hill h') (Bool.eq_false_iff.mp h), fun h h' => absurd (hinv h') (Bool.eq_false_iff.mp h),
      fun h h' => absurd (hsat h') (Bool.eq_false_iff.mp h)⟩

end Sys2Proof.Machine
end

section
/-! PROOFS. The reset input and SRST (R220, R181). -/

namespace Sys2Proof.Machine

/-- Serving the reset input takes that event alone from the list and resets the engine (R220). -/
theorem step_reset {s : State} {rest : List HostEvent} (hp : s.pending = .reset :: rest) :
    step s = .next (State.doReset { s with pending := rest }) := by
  rw [step_of_pending hp, portStep]

/-- SRST is the same reset, run as a command (R181). -/
theorem exec_srst (s : State) : exec .srst s = .next s.doReset := rfl

/-- Settles O2: both are `doReset`, which sets every element of R35 and keeps NCH and the model's own fields (log 12). -/
theorem resetAndSrstGiveTheResetState : Obligations.ResetAndSrstGiveTheResetState := by
  intro s
  constructor
  · intro rest hp
    exact ⟨_, step_reset hp, State.doReset_isReset _, State.nch_doReset _, State.doReset_pending _,
      State.doReset_observed _, State.doReset_nanDraws _⟩
  · exact ⟨s.doReset, exec_srst s, s.doReset_isReset, s.nch_doReset, ⟨s.doReset_pending, s.doReset_observed⟩,
      s.doReset_nanDraws⟩

end Sys2Proof.Machine
end
